-- ==== Sys2Proof/Word.lean ====
section
/-! DEFINITION. The machine's words: their widths and names (spec 00_scope.md R6, R9, R10). -/

namespace Sys2Proof

/-- Four bits: a register field `X` or `Y`, the field `N`, `LASTKEY`, a key number. -/
abbrev Nibble := BitVec 4

/-- Eight bits: a `V` register, `DT`, `ST`, a memory byte, the field `NN`. -/
abbrev Byte := BitVec 8

/-- Twelve bits: the field `NNN`, a byte address of memory. -/
abbrev Addr12 := BitVec 12

/-- Sixteen bits: `PC`, `I`, a stack slot, an instruction word, `KEYS`. -/
abbrev Word := BitVec 16

/-- The frame `FB[y][x]`, 32 rows of 64 one-bit pixels, row first (10_state.md R40). -/
abbrev Frame := Vector (Vector Bool 64) 32

end Sys2Proof
end

