-- ==== Sys2Proof/Syntax.lean ====
section
/-! DEFINITION. The instructions, one constructor for each row of the opcode table, and the events that
drive the core. -/

namespace Sys2Proof

/-- The 34 instructions, in the order of the opcode map (30_encoding.md R75). The operands are the fields of
R72: `x`, `y`, `n` of 4 bits, `nn` of 8, `nnn` of 12. -/
inductive Instr where
  /-- `00E0` -/
  | cls
  /-- `00EE` -/
  | ret
  /-- `1NNN` -/
  | jpNnn (nnn : Addr12)
  /-- `2NNN` -/
  | callNnn (nnn : Addr12)
  /-- `3XNN` -/
  | seVxNn (x : Nibble) (nn : Byte)
  /-- `4XNN` -/
  | sneVxNn (x : Nibble) (nn : Byte)
  /-- `5XY0` -/
  | seVxVy (x y : Nibble)
  /-- `6XNN` -/
  | ldVxNn (x : Nibble) (nn : Byte)
  /-- `7XNN` -/
  | addVxNn (x : Nibble) (nn : Byte)
  /-- `8XY0` -/
  | ldVxVy (x y : Nibble)
  /-- `8XY1` -/
  | orVxVy (x y : Nibble)
  /-- `8XY2` -/
  | andVxVy (x y : Nibble)
  /-- `8XY3` -/
  | xorVxVy (x y : Nibble)
  /-- `8XY4` -/
  | addVxVy (x y : Nibble)
  /-- `8XY5` -/
  | subVxVy (x y : Nibble)
  /-- `8XY6` -/
  | shrVxVy (x y : Nibble)
  /-- `8XY7` -/
  | subnVxVy (x y : Nibble)
  /-- `8XYE` -/
  | shlVxVy (x y : Nibble)
  /-- `9XY0` -/
  | sneVxVy (x y : Nibble)
  /-- `ANNN` -/
  | ldINnn (nnn : Addr12)
  /-- `BNNN` -/
  | jpV0Nnn (nnn : Addr12)
  /-- `CXNN` -/
  | rndVxNn (x : Nibble) (nn : Byte)
  /-- `DXYN` -/
  | drwVxVyN (x y n : Nibble)
  /-- `EX9E` -/
  | skpVx (x : Nibble)
  /-- `EXA1` -/
  | sknpVx (x : Nibble)
  /-- `FX07` -/
  | ldVxDt (x : Nibble)
  /-- `FX0A` -/
  | ldVxK (x : Nibble)
  /-- `FX15` -/
  | ldDtVx (x : Nibble)
  /-- `FX18` -/
  | ldStVx (x : Nibble)
  /-- `FX1E` -/
  | addIVx (x : Nibble)
  /-- `FX29` -/
  | ldFVx (x : Nibble)
  /-- `FX33` -/
  | ldBVx (x : Nibble)
  /-- `FX55` -/
  | ldMiVx (x : Nibble)
  /-- `FX65` -/
  | ldVxMi (x : Nibble)
  deriving DecidableEq, Repr

/-- What drives the core: atomic events in the order the host chooses (00_scope.md R8). -/
inductive Event where
  /-- One instruction cycle (40_instruction_cycle.md R90). -/
  | step
  /-- The Reset event (70_reset_and_hazards.md R200). -/
  | reset
  /-- The Load event with the image's bytes (70_reset_and_hazards.md R207). -/
  | load (img : List Byte)
  /-- One elapsed 1/60 second (60_exceptions.md R178). -/
  | tick
  /-- `dt` seconds of real time have elapsed (60_exceptions.md R179). -/
  | timerAdvance (dt : Rat)
  /-- Hex key `k` goes down (60_exceptions.md R183). -/
  | keyDown (k : Nibble)
  /-- Hex key `k` comes up (60_exceptions.md R184). -/
  | keyUp (k : Nibble)
  deriving DecidableEq, Repr

end Sys2Proof
end

