-- ==== Sys2Proof/Decode.lean ====
section
/-! DEFINITION. The decoder, total on any word and any bytes, and the encoder (spec 30_encoding.md). -/

namespace Sys2Proof

/-- Why a word or a byte sequence is no instruction: the family of 30_encoding.md R78 it falls in, or too few
bytes for an instruction. A refusal of the decoder; the machine reports `InvalidOpcode` (R96). -/
inductive DecodeError where
  /-- `0NNN` but `00E0` and `00EE`. -/
  | invalid0
  /-- `5XYN` with `N` not 0. -/
  | invalid5
  /-- `8XYN` with `N` one of 8 to 0xD, 0xF. -/
  | invalid8
  /-- `9XYN` with `N` not 0. -/
  | invalid9
  /-- `EXNN` with `NN` not 0x9E and not 0xA1. -/
  | invalidE
  /-- `FXNN` with `NN` none of the nine codes of R76. -/
  | invalidF
  /-- Fewer than the two bytes of R70. -/
  | truncated
  deriving DecidableEq, Repr

/-- `IR[15:12]` (R72). -/
def fieldOp (ir : Word) : Nibble := ir.extractLsb' 12 4

/-- `IR[11:8]` (R72). -/
def fieldX (ir : Word) : Nibble := ir.extractLsb' 8 4

/-- `IR[7:4]` (R72). -/
def fieldY (ir : Word) : Nibble := ir.extractLsb' 4 4

/-- `IR[3:0]` (R72); in format `XYF` the function code `F4`. -/
def fieldN (ir : Word) : Nibble := ir.extractLsb' 0 4

/-- `IR[7:0]` (R72); in format `XFF` the function code `F8`. -/
def fieldNN (ir : Word) : Byte := ir.extractLsb' 0 8

/-- `IR[11:0]` (R72). -/
def fieldNNN (ir : Word) : Addr12 := ir.extractLsb' 0 12

/-- Family `0NNN`: two whole words and no other (R76, R80). -/
def decode0 (ir : Word) : Except DecodeError Instr :=
  if ir = 0x00E0 then .ok .cls
  else if ir = 0x00EE then .ok .ret
  else .error .invalid0

/-- Family `8XYN`: the function code `F4` selects the operation (R75 rows 10 to 18, R76). -/
def decode8 (x y f4 : Nibble) : Except DecodeError Instr :=
  match f4 with
  | 0x0#4 => .ok (.ldVxVy x y)
  | 0x1#4 => .ok (.orVxVy x y)
  | 0x2#4 => .ok (.andVxVy x y)
  | 0x3#4 => .ok (.xorVxVy x y)
  | 0x4#4 => .ok (.addVxVy x y)
  | 0x5#4 => .ok (.subVxVy x y)
  | 0x6#4 => .ok (.shrVxVy x y)
  | 0x7#4 => .ok (.subnVxVy x y)
  | 0xE#4 => .ok (.shlVxVy x y)
  | _ => .error .invalid8

/-- Family `EXNN`: the function code `F8` selects the key test (R76). -/
def decodeE (x : Nibble) (f8 : Byte) : Except DecodeError Instr :=
  match f8 with
  | 0x9E#8 => .ok (.skpVx x)
  | 0xA1#8 => .ok (.sknpVx x)
  | _ => .error .invalidE

/-- Family `FXNN`: the function code `F8` is one of nine (R76). -/
def decodeF (x : Nibble) (f8 : Byte) : Except DecodeError Instr :=
  match f8 with
  | 0x07#8 => .ok (.ldVxDt x)
  | 0x0A#8 => .ok (.ldVxK x)
  | 0x15#8 => .ok (.ldDtVx x)
  | 0x18#8 => .ok (.ldStVx x)
  | 0x1E#8 => .ok (.addIVx x)
  | 0x29#8 => .ok (.ldFVx x)
  | 0x33#8 => .ok (.ldBVx x)
  | 0x55#8 => .ok (.ldMiVx x)
  | 0x65#8 => .ok (.ldVxMi x)
  | _ => .error .invalidF

/-- The decoder of words (30_encoding.md R76, R77; 40_instruction_cycle.md R94): `OP` selects the family. The
last arm is the one value of `OP` left, 0xF. Every fixed digit of a pattern is checked (D4, log entry 15). -/
def decode (ir : Word) : Except DecodeError Instr :=
  match fieldOp ir with
  | 0x0#4 => decode0 ir
  | 0x1#4 => .ok (.jpNnn (fieldNNN ir))
  | 0x2#4 => .ok (.callNnn (fieldNNN ir))
  | 0x3#4 => .ok (.seVxNn (fieldX ir) (fieldNN ir))
  | 0x4#4 => .ok (.sneVxNn (fieldX ir) (fieldNN ir))
  | 0x5#4 => if fieldN ir = 0 then .ok (.seVxVy (fieldX ir) (fieldY ir)) else .error .invalid5
  | 0x6#4 => .ok (.ldVxNn (fieldX ir) (fieldNN ir))
  | 0x7#4 => .ok (.addVxNn (fieldX ir) (fieldNN ir))
  | 0x8#4 => decode8 (fieldX ir) (fieldY ir) (fieldN ir)
  | 0x9#4 => if fieldN ir = 0 then .ok (.sneVxVy (fieldX ir) (fieldY ir)) else .error .invalid9
  | 0xA#4 => .ok (.ldINnn (fieldNNN ir))
  | 0xB#4 => .ok (.jpV0Nnn (fieldNNN ir))
  | 0xC#4 => .ok (.rndVxNn (fieldX ir) (fieldNN ir))
  | 0xD#4 => .ok (.drwVxVyN (fieldX ir) (fieldY ir) (fieldN ir))
  | 0xE#4 => decodeE (fieldX ir) (fieldNN ir)
  | _ => decodeF (fieldX ir) (fieldNN ir)

/-- Two bytes make a word big-endian: the byte from the lower address in `IR[15:8]` (20_memory.md R52). -/
def wordOfBytes (hi lo : Byte) : Word := hi ++ lo

/-- The decoder of byte sequences: the instruction and the bytes after it (R70: always 2 bytes). -/
def decodeBytes : List Byte → Except DecodeError (Instr × List Byte)
  | hi :: lo :: rest => (decode (wordOfBytes hi lo)).map (fun i => (i, rest))
  | [_] | [] => .error .truncated

/-- Formats `XYF` and `XYN`: four nibbles, most significant first (R71, R73). -/
def wordXYN (op x y n : Nibble) : Word := op ++ x ++ y ++ n

/-- Formats `XNN` and `XFF`: two nibbles and a byte (R71, R73). -/
def wordXNN (op x : Nibble) (nn : Byte) : Word := op ++ x ++ nn

/-- Format `NNN`: a nibble and 12 bits (R71, R73). -/
def wordNNN (op : Nibble) (nnn : Addr12) : Word := op ++ nnn

/-- The encoder: the word of an instruction, from the patterns of 30_encoding.md R75. -/
def encode : Instr → Word
  | .cls => 0x00E0
  | .ret => 0x00EE
  | .jpNnn nnn => wordNNN 0x1 nnn
  | .callNnn nnn => wordNNN 0x2 nnn
  | .seVxNn x nn => wordXNN 0x3 x nn
  | .sneVxNn x nn => wordXNN 0x4 x nn
  | .seVxVy x y => wordXYN 0x5 x y 0x0
  | .ldVxNn x nn => wordXNN 0x6 x nn
  | .addVxNn x nn => wordXNN 0x7 x nn
  | .ldVxVy x y => wordXYN 0x8 x y 0x0
  | .orVxVy x y => wordXYN 0x8 x y 0x1
  | .andVxVy x y => wordXYN 0x8 x y 0x2
  | .xorVxVy x y => wordXYN 0x8 x y 0x3
  | .addVxVy x y => wordXYN 0x8 x y 0x4
  | .subVxVy x y => wordXYN 0x8 x y 0x5
  | .shrVxVy x y => wordXYN 0x8 x y 0x6
  | .subnVxVy x y => wordXYN 0x8 x y 0x7
  | .shlVxVy x y => wordXYN 0x8 x y 0xE
  | .sneVxVy x y => wordXYN 0x9 x y 0x0
  | .ldINnn nnn => wordNNN 0xA nnn
  | .jpV0Nnn nnn => wordNNN 0xB nnn
  | .rndVxNn x nn => wordXNN 0xC x nn
  | .drwVxVyN x y n => wordXYN 0xD x y n
  | .skpVx x => wordXNN 0xE x 0x9E
  | .sknpVx x => wordXNN 0xE x 0xA1
  | .ldVxDt x => wordXNN 0xF x 0x07
  | .ldVxK x => wordXNN 0xF x 0x0A
  | .ldDtVx x => wordXNN 0xF x 0x15
  | .ldStVx x => wordXNN 0xF x 0x18
  | .addIVx x => wordXNN 0xF x 0x1E
  | .ldFVx x => wordXNN 0xF x 0x29
  | .ldBVx x => wordXNN 0xF x 0x33
  | .ldMiVx x => wordXNN 0xF x 0x55
  | .ldVxMi x => wordXNN 0xF x 0x65

/-- The byte of a word stored at the lower address (R52, R70). -/
def highByte (w : Word) : Byte := w.extractLsb' 8 8

/-- The byte of a word stored at the higher address (R52, R70). -/
def lowByte (w : Word) : Byte := w.extractLsb' 0 8

/-- An instruction as it lies in memory, high byte first (R70). -/
def encodeBytes (i : Instr) : List Byte := [highByte (encode i), lowByte (encode i)]

/-- The instruction word that the opcode table's bit numbering writes as the number `w` of `nbits` bits: bits
above `nbits` are 0, bit 0 is the least significant bit of the word (00_scope.md R9, log entry 26). -/
def tableWord (nbits w : Nat) : Word := BitVec.ofNat 16 (w % 2 ^ nbits)

/-- What the decoder reads from the bytes of that word as the hardware stores them. -/
def decodeTableWord (nbits w : Nat) : Option Instr :=
  match decodeBytes [highByte (tableWord nbits w), lowByte (tableWord nbits w)] with
  | .ok (i, _) => some i
  | .error _ => none

end Sys2Proof
end

