-- ==== Sys2Proof/Machine/Flags.lean ====
section
/-! DEFINITION. Every value an instruction writes to the flag register `V[0xF]` as a side effect
(10_state.md R27; 42_alu.md R110 to R123), a function of the operands captured before any write (R111). -/

namespace Sys2Proof.Machine

/-- A flag as the byte written to `V[0xF]`: 1 or 0 (R26, R27). -/
def flagByte (b : Bool) : Byte := if b then 0x01 else 0x00

/-- Carry of `8XY4`: the unsigned sum exceeds 255 (R119). -/
def carryFlag (x y : Byte) : Byte := flagByte (decide (255 < x.toNat + y.toNat))

/-- No borrow in `a - b`: `a >= b`, for `8XY5` and, with the operands exchanged, `8XY7` (R120, R122). -/
def noBorrowFlag (a b : Byte) : Byte := flagByte (decide (b.toNat ≤ a.toNat))

/-- The bit a right shift moves out, bit 0, for `8XY6` (R121). -/
def shiftedOutRight (y : Byte) : Byte := flagByte (y.getLsbD 0)

/-- The bit a left shift moves out, bit 7, for `8XYE` (R123). -/
def shiftedOutLeft (y : Byte) : Byte := flagByte (y.getLsbD 7)

/-- The collision bit of `DXYN` (44_display.md R144). -/
def collisionFlag (collided : Bool) : Byte := flagByte collided

end Sys2Proof.Machine
end

