-- ==== Sys2Proof/Config.lean ====
section
/-! DEFINITION. What is fixed for the machine: the parameters the spec fixes (00_scope.md R6), the
parameters it leaves open (R7, R43), and the free values. -/

namespace Sys2Proof.Config

/-- `MEM_SIZE` (R6). -/
def memSize : Nat := 4096

/-- `PROGRAM_START` (R6): the first byte of the program image and the value of `PC` after reset. -/
def programStart : Nat := 0x200

/-- `MAX_IMAGE` (R6): the largest program image, in bytes. -/
def maxImage : Nat := 3584

/-- `STACK_DEPTH` (R6). -/
def stackDepth : Nat := 16

/-- `TICK_HZ` (R6): ticks in one second. -/
def tickHz : Nat := 60

/-- `GLYPH_BYTES` (R6). -/
def glyphBytes : Nat := 5

/-- `FONT_BYTES` (R6). -/
def fontBytes : Nat := 80

/-- `FB_WIDTH` and `FB_HEIGHT` (R6). -/
def fbWidth : Nat := 64

/-- See `fbWidth`. -/
def fbHeight : Nat := 32

/-- `CLOCK_RATE` (R7, R229): the host's default pace in steps a second. No definition reads it. -/
def clockRate : Nat := 500

/-- `FONT_BASE` (R7, 92_eei_decisions.md D8): an OPEN parameter with `FONT_BASE + 80 <= 0x200`, hence at
most 432. It has no body: nothing can be proved of it but that bound. Log entry 1, safe. -/
opaque fontBase : Fin 433

/-- `FONT_TABLE` (R7, R201): the 80 bytes the spec gives as the default of this open parameter.
PRESUMED (the spec itself marks the bytes as general knowledge, G1): log entry 2, unsafe. -/
def fontTable : List Byte :=
  [0xF0, 0x90, 0x90, 0x90, 0xF0,  0x20, 0x60, 0x20, 0x20, 0x70,
   0xF0, 0x10, 0xF0, 0x80, 0xF0,  0xF0, 0x10, 0xF0, 0x10, 0xF0] ++
  [0x90, 0x90, 0xF0, 0x10, 0x10,  0xF0, 0x80, 0xF0, 0x10, 0xF0,
   0xF0, 0x80, 0xF0, 0x90, 0xF0,  0xF0, 0x10, 0x20, 0x40, 0x40] ++
  [0xF0, 0x90, 0xF0, 0x90, 0xF0,  0xF0, 0x90, 0xF0, 0x10, 0xF0,
   0xF0, 0x90, 0xF0, 0x90, 0x90,  0xE0, 0x90, 0xE0, 0x90, 0xE0] ++
  [0xF0, 0x80, 0x80, 0x80, 0xF0,  0xE0, 0x90, 0x90, 0x90, 0xE0,
   0xF0, 0x80, 0xF0, 0x80, 0xF0,  0xF0, 0x80, 0xF0, 0x80, 0x80]

/-- `FB_INIT` (R7, R40, D11): the frame at power-on, the spec's default, all 0. DESIGN CHOICE, log entry 3. -/
def fbInit : Frame := Vector.replicate 32 (Vector.replicate 64 false)

/-- `RND` (R7, R124, R187, D12): the byte the random source answers at its `k`-th sampling. A free value: no
body, so nothing in Lean can evaluate it. Log entry 4, safe. -/
opaque randomByte : Nat → Byte

end Sys2Proof.Config
end

