-- ==== Sys2Proof/Machine/State.lean ====
section
/-! DEFINITION. The state of the machine as plain data (spec 10_state.md), the reports, the reasons a step can
stop, and the state right after reset. -/

namespace Sys2Proof.Machine

/-- An error report, an event on the core's report output (60_exceptions.md R160 to R165): its kind, the
instruction word `ir` and the address `a` it was fetched from, or the value of `PC`. -/
inductive Report where
  /-- Code 1 (R161): the fetched word is no instruction. -/
  | invalidOpcode (ir a : Word)
  /-- Code 2 (R162): a call with 16 occupied slots. -/
  | stackOverflow (ir a : Word)
  /-- Code 3 (R163): a return with no occupied slot. -/
  | stackUnderflow (ir a : Word)
  /-- Code 4 (R164): a step began with `PC > 0x0FFE`. -/
  | pcOutOfRange (pc : Word)
  deriving DecidableEq, Repr

/-- Why a run can count as failed. No meaning and no `step` raises one: the core's error reports are never fatal
(R160) and the machine goes on. -/
inductive Fault where
  /-- Raised by `Safety.strictStep` only, the reading of 93_implementation_defined.md U12 in which a step that
  emits a report is a fault of the program. Safe: it stops where the hardware goes on. Log entry 28. -/
  | reported (r : Report)
  deriving DecidableEq, Repr

/-- Why the machine gives an event no meaning. -/
inductive Refusal where
  /-- Raised by an arm of `exec` whose instruction has no meaning yet; none is left. Safe. -/
  | notModelled (mnemonic : String)
  /-- Raised by `State.afterReset` for a Step, Load, Tick or TimerAdvance before the first Reset, as
  70_reset_and_hazards.md R203 asks. Safe. Log entry 10. -/
  | beforeReset
  /-- Raised by `State.loadEvent` for an image of `n` bytes with `n = 0` or `n > 3584`, which the host rejects and never
  sends (70_reset_and_hazards.md R208). Safe. Log entry 11. -/
  | imageSize (n : Nat)
  /-- Raised by `State.timerEvent` for an elapsed time below 0, which is no event (60_exceptions.md R179). Safe.
  Log entry 6. -/
  | negativeTime
  deriving DecidableEq, Repr

/-- Memory: (address, byte) pairs in one canonical form, see `Memory.wf` (Ops.lean). An address not listed reads
as `Memory.unlisted`, its content after Reset. -/
abbrev Memory := List Host.Cell

/-- The state: every piece of 10_state.md R44, then the model's own fields. -/
structure State where
  /-- `V[0]` to `V[15]` (R20). -/
  v : Vector Byte 16
  /-- `I` (R28). -/
  i : Word
  /-- `PC` (R23). -/
  pc : Word
  /-- `SP`, the count of occupied slots, 0 to 16 (R31). -/
  sp : Fin 17
  /-- `STACK[0]` to `STACK[15]` (R30). -/
  stack : Vector Word 16
  /-- `DT` (R33). -/
  dt : Byte
  /-- `ST` (R34). -/
  st : Byte
  /-- `MEM` (R39). -/
  mem : Memory
  /-- `KEYS` (R35): bit `k` is 1 while key `k` is down. -/
  keys : Word
  /-- `LASTKEY` (R36). -/
  lastKey : Nibble
  /-- `KREL` (R37). -/
  kRel : Bool
  /-- `FB`, the video sink's frame (R40). -/
  fb : Frame
  /-- `ACC`, the timer unit's accumulator in seconds (R41; 60_exceptions.md R179). Log entry 5. -/
  acc : Rat
  /-- Has a Reset happened since power-on (70_reset_and_hazards.md R203)? Log entry 10. -/
  hasReset : Bool
  /-- The model's own: the reports emitted so far, newest first (60_exceptions.md R160). Log entry 9. -/
  reports : List Report
  /-- The model's own: the host's schedule of events to come, oldest first (R168). Log entry 7. -/
  inputs : List Event
  /-- The model's own: how many random bytes have been sampled (60_exceptions.md R187). Log entry 4. -/
  draws : Nat
  deriving DecidableEq, Repr

/-- The machine right after the first Reset (70_reset_and_hazards.md R200, R203; 10_state.md R44). The reset
content of memory lists nothing: it is what unlisted addresses read as. `acc`, `reports`, `inputs` and `draws`
have values the spec does not give (log entries 5, 9, 7, 4). -/
def State.reset : State where
  v := Vector.replicate 16 0x00
  i := 0x0000
  pc := BitVec.ofNat 16 Config.programStart
  sp := 0
  stack := Vector.replicate 16 0x0000
  dt := 0x00
  st := 0x00
  mem := []
  keys := 0x0000
  lastKey := 0x0
  kRel := false
  fb := Config.fbInit
  acc := 0
  hasReset := true
  reports := []
  inputs := []
  draws := 0

end Sys2Proof.Machine
end

