-- ==== Sys2Proof/Machine/Operands.lean ====
section
/-! DEFINITION. The operand forms: registers, immediates, effective addresses, key numbers, sprite positions,
decimal digits and glyph addresses. -/

namespace Sys2Proof.Machine

/-- Read `V[x]` (10_state.md R21). -/
def State.readV (s : State) (x : Nibble) : Byte := s.v[x.toNat]'(x.isLt)

/-- `V[k]` for a count `k` of the block moves, 0 to 15 (43_index_memory.md R135, R136). -/
def blockReg (k : Nat) : Nibble := BitVec.ofNat 4 k

/-- `zext_16` of a byte (00_scope.md R10). -/
def zextByte (b : Byte) : Word := b.setWidth 16

/-- `zext_16` of the field `NNN` (30_encoding.md R74). -/
def zextAddr (nnn : Addr12) : Word := nnn.setWidth 16

/-- `zext_8` of `LASTKEY` (45_keypad_timers.md R152). -/
def zextKey (k : Nibble) : Byte := k.setWidth 8

/-- The 16-bit sum `(base + k) mod 65536` of the one addressing mode (20_memory.md R57, 43_index_memory.md R130). -/
def indexed (base : Word) (k : Nat) : Word := base + BitVec.ofNat 16 k

/-- `EA(a) = a mod 4096`, the 12-bit address bus (20_memory.md R57, D3). Log entry 12. -/
def ea (a : Word) : Nat := a.toNat % Config.memSize

/-- Is the key numbered by a whole byte down: `k <= 15` and `KEYS[k] = 1` (45_keypad_timers.md R150, R156, D7).
Log entry 14. -/
def State.keyPressed (s : State) (k : Byte) : Bool := decide (k.toNat ≤ 15) && s.keys.getLsbD k.toNat

/-- Column of a sprite: `V[X] mod 64` (44_display.md R144). -/
def spriteColumn (b : Byte) : Nat := b.toNat % Config.fbWidth

/-- Row of a sprite: `V[Y] mod 32` (44_display.md R144). -/
def spriteRow (b : Byte) : Nat := b.toNat % Config.fbHeight

/-- The hundreds digit of `FX33` (43_index_memory.md R134). -/
def hundreds (b : Byte) : Byte := BitVec.ofNat 8 (b.toNat / 100)

/-- The tens digit of `FX33` (R134). -/
def tens (b : Byte) : Byte := BitVec.ofNat 8 (b.toNat / 10 % 10)

/-- The ones digit of `FX33` (R134). -/
def ones (b : Byte) : Byte := BitVec.ofNat 8 (b.toNat % 10)

/-- `FONT_BASE + 5 * zext_16(b)` on all 8 bits (43_index_memory.md R133, D18). Log entry 17. -/
def glyphAddress (b : Byte) : Word := BitVec.ofNat 16 (Config.fontBase.val + Config.glyphBytes * b.toNat)

end Sys2Proof.Machine
end

