-- ==== Sys2Proof/Machine/Ops.lean ====
section
/-! DEFINITION. The named operations over memory and registers that every meaning is written with. -/

namespace Sys2Proof.Machine

/-! One update per field. -/

/-- Replace the registers. -/
def State.setV (s : State) (v : Vector Byte 16) : State := { s with v := v }
/-- Replace `I`. -/
def State.setI (s : State) (a : Word) : State := { s with i := a }
/-- Replace `PC`. -/
def State.setPc (s : State) (a : Word) : State := { s with pc := a }
/-- Replace `SP`. -/
def State.setSp (s : State) (n : Fin 17) : State := { s with sp := n }
/-- Replace the stack slots. -/
def State.setStack (s : State) (k : Vector Word 16) : State := { s with stack := k }
/-- Replace `DT`. -/
def State.setDt (s : State) (b : Byte) : State := { s with dt := b }
/-- Replace `ST`. -/
def State.setSt (s : State) (b : Byte) : State := { s with st := b }
/-- Replace memory. -/
def State.setMem (s : State) (m : Memory) : State := { s with mem := m }
/-- Replace `KEYS`. -/
def State.setKeys (s : State) (k : Word) : State := { s with keys := k }
/-- Replace `LASTKEY`. -/
def State.setLastKey (s : State) (k : Nibble) : State := { s with lastKey := k }
/-- Replace `KREL`. -/
def State.setKRel (s : State) (b : Bool) : State := { s with kRel := b }
/-- Replace the frame. -/
def State.setFb (s : State) (f : Frame) : State := { s with fb := f }
/-- Replace `ACC`. -/
def State.setAcc (s : State) (a : Rat) : State := { s with acc := a }
/-- Say whether a Reset has happened. -/
def State.setHasReset (s : State) (b : Bool) : State := { s with hasReset := b }
/-- Replace the report history. -/
def State.setReports (s : State) (rs : List Report) : State := { s with reports := rs }
/-- Replace the host's schedule. -/
def State.setInputs (s : State) (es : List Event) : State := { s with inputs := es }
/-- Replace the count of sampled random bytes. -/
def State.setDraws (s : State) (n : Nat) : State := { s with draws := n }

/-! Registers. -/

/-- `V[x] <- b` (10_state.md R21). -/
def State.writeV (s : State) (x : Nibble) (b : Byte) : State := s.setV (s.v.set x.toNat b x.isLt)

/-- Result to `V[x]` first, flag to `V[0xF]` second: with `x = 0xF` the flag is what stays (42_alu.md R112, D6).
Log entry 13. -/
def State.writeResultAndFlag (s : State) (x : Nibble) (result flag : Byte) : State :=
  (s.writeV x result).writeV 0xF flag

/-! Memory. -/

/-- What an address that nothing has written since Reset holds (70_reset_and_hazards.md R200, R201): the font
in its 80 bytes, 0 elsewhere. Log entries 1, 2, 25. -/
def Memory.unlisted (a : Nat) : Byte :=
  if Config.programStart ≤ a then 0x00
  else if Config.fontBase.val ≤ a ∧ a < Config.fontBase.val + Config.fontBytes then
    Config.fontTable.getD (a - Config.fontBase.val) 0x00
  else 0x00

/-- Read the byte at an address. -/
def Memory.read : Memory → Nat → Byte
  | [], a => Memory.unlisted a
  | (k, b) :: rest, a => if k = a then b else Memory.read rest a

/-- Put a byte in front of the rest unless it is what the address reads as unlisted. -/
def Memory.putFront (a : Nat) (b : Byte) (rest : Memory) : Memory :=
  if b = Memory.unlisted a then rest else (a, b) :: rest

/-- Write a byte at an address, keeping the canonical form. -/
def Memory.write : Memory → Nat → Byte → Memory
  | [], a, b => Memory.putFront a b []
  | (k, c) :: rest, a, b =>
    if a < k then Memory.putFront a b ((k, c) :: rest)
    else if a = k then Memory.putFront a b rest
    else (k, c) :: Memory.write rest a b

/-- The canonical form: addresses strictly rising and below 4096, no entry equal to what its address reads as
unlisted. -/
abbrev Memory.wf (m : Memory) : Prop :=
  m.Pairwise (fun c d => c.1 < d.1) ∧ ∀ c ∈ m, c.1 < Config.memSize ∧ c.2 ≠ Memory.unlisted c.1

/-- `MemRead(a, 1)` (00_scope.md R12, 20_memory.md R57). -/
def State.memRead (s : State) (a : Word) : Byte := s.mem.read (ea a)

/-- `MemWrite(a, 1, b)` (00_scope.md R12, 20_memory.md R57). -/
def State.memWrite (s : State) (a : Word) (b : Byte) : State := s.setMem (s.mem.write (ea a) b)

/-- Write bytes at `base`, `base + 1`, ... from offset `k` on, each address reduced by itself (R57). -/
def Memory.storeFrom (m : Memory) (base : Word) : Nat → List Byte → Memory
  | _, [] => m
  | k, b :: rest => Memory.storeFrom (m.write (ea (indexed base k)) b) base (k + 1) rest

/-- A block of `MemWrite`s at `base`, `base + 1`, ... (43_index_memory.md R134, R135). -/
def State.store (s : State) (base : Word) (bytes : List Byte) : State :=
  s.setMem (s.mem.storeFrom base 0 bytes)

/-- The `n` bytes at `base`, `base + 1`, ... (R57). -/
def State.loadBytes (s : State) (base : Word) (n : Nat) : List Byte :=
  (List.range n).map (fun k => s.memRead (indexed base k))

/-- `V[0]` to `V[n - 1]`, the source of `FX55` (43_index_memory.md R135). -/
def State.blockRegs (s : State) (n : Nat) : List Byte := (List.range n).map (fun k => s.readV (blockReg k))

/-- `V[k] <- b` for the bytes of a block load, from `V[k]` on. -/
def regsFrom (v : Vector Byte 16) : Nat → List Byte → Vector Byte 16
  | _, [] => v
  | k, b :: rest => regsFrom (v.set (blockReg k).toNat b (blockReg k).isLt) (k + 1) rest

/-- A block load into `V[0]`, `V[1]`, ... (43_index_memory.md R136). -/
def State.writeRegs (s : State) (bytes : List Byte) : State := s.setV (regsFrom s.v 0 bytes)

/-! Control. -/

/-- The cycle's `PC <- (PC + 2) mod 65536` (40_instruction_cycle.md R93). -/
def State.advance (s : State) : State := s.setPc (s.pc + 2)

/-- Skip the next instruction when the condition holds: a further `PC + 2` (41_control_flow.md R100). -/
def State.skipIf (s : State) (c : Bool) : State := if c then s.setPc (s.pc + 2) else s

/-- The address `A` of the executing instruction, whose `PC` is already `A + 2` (40_instruction_cycle.md R93).
Log entry 32. -/
def State.instrAddress (s : State) : Word := s.pc - 2

/-- Emit a report and change nothing else: this machine's whole "taking an exception" (00_scope.md R13,
60_exceptions.md R160, R171). There is no return from one (R173). -/
def State.emit (s : State) (r : Report) : State := s.setReports (r :: s.reports)

/-- The numeric code of a report (60_exceptions.md R165). -/
def Report.code : Report → Nat
  | .invalidOpcode _ _ => 1
  | .stackOverflow _ _ => 2
  | .stackUnderflow _ _ => 3
  | .pcOutOfRange _ => 4

/-- Push a return address: it goes to slot `SP`, then `SP + 1`; none when 16 slots are occupied
(10_state.md R32). -/
def State.push (s : State) (a : Word) : Option State :=
  if h : s.sp.val < 16 then
    some ((s.setStack (s.stack.set s.sp.val a h)).setSp ⟨s.sp.val + 1, by omega⟩)
  else none

/-- Pop a return address: `SP - 1`, and the content of that slot, which is not cleared; none when no slot is
occupied (10_state.md R32). -/
def State.pop (s : State) : Option (Word × State) :=
  if h : 0 < s.sp.val then
    some (s.stack[s.sp.val - 1]'(by have := s.sp.isLt; omega),
      s.setSp ⟨s.sp.val - 1, by have := s.sp.isLt; omega⟩)
  else none

/-! Random source. -/

/-- `random_byte()`: the next free value, and the count of samples advanced (60_exceptions.md R187). Log entry 4. -/
def State.sampleRandom (s : State) : Byte × State := (Config.randomByte s.draws, s.setDraws (s.draws + 1))

end Sys2Proof.Machine
end

