-- ==== Sys2Proof/Machine/Alu.lean ====
section
/-! DEFINITION. Register and ALU instructions (spec 42_alu.md). Operands are captured before any write (R111). -/

namespace Sys2Proof.Machine

/-- `6XNN` (R113). -/
def execLdVxNn (x : Nibble) (nn : Byte) (s : State) : Host.Outcome State Fault Refusal :=
  .next (s.writeV x nn)

/-- `7XNN` (R114): modulo 256, no flag. -/
def execAddVxNn (x : Nibble) (nn : Byte) (s : State) : Host.Outcome State Fault Refusal :=
  .next (s.writeV x (s.readV x + nn))

/-- `8XY0` (R115). -/
def execLdVxVy (x y : Nibble) (s : State) : Host.Outcome State Fault Refusal :=
  .next (s.writeV x (s.readV y))

/-- `8XY1` (R116): no flag (log entry 18). -/
def execOrVxVy (x y : Nibble) (s : State) : Host.Outcome State Fault Refusal :=
  .next (s.writeV x (s.readV x ||| s.readV y))

/-- `8XY2` (R117): no flag (log entry 18). -/
def execAndVxVy (x y : Nibble) (s : State) : Host.Outcome State Fault Refusal :=
  .next (s.writeV x (s.readV x &&& s.readV y))

/-- `8XY3` (R118): no flag (log entry 18). -/
def execXorVxVy (x y : Nibble) (s : State) : Host.Outcome State Fault Refusal :=
  .next (s.writeV x (s.readV x ^^^ s.readV y))

/-- `8XY4` (R119): sum modulo 256, carry. -/
def execAddVxVy (x y : Nibble) (s : State) : Host.Outcome State Fault Refusal :=
  .next (s.writeResultAndFlag x (s.readV x + s.readV y) (carryFlag (s.readV x) (s.readV y)))

/-- `8XY5` (R120): `V[X] - V[Y]` modulo 256, no borrow. -/
def execSubVxVy (x y : Nibble) (s : State) : Host.Outcome State Fault Refusal :=
  .next (s.writeResultAndFlag x (s.readV x - s.readV y) (noBorrowFlag (s.readV x) (s.readV y)))

/-- `8XY6` (R121): the value shifted is `V[Y]`. -/
def execShrVxVy (x y : Nibble) (s : State) : Host.Outcome State Fault Refusal :=
  .next (s.writeResultAndFlag x (s.readV y >>> 1) (shiftedOutRight (s.readV y)))

/-- `8XY7` (R122): `V[Y] - V[X]` modulo 256, no borrow. -/
def execSubnVxVy (x y : Nibble) (s : State) : Host.Outcome State Fault Refusal :=
  .next (s.writeResultAndFlag x (s.readV y - s.readV x) (noBorrowFlag (s.readV y) (s.readV x)))

/-- `8XYE` (R123): the value shifted is `V[Y]`. -/
def execShlVxVy (x y : Nibble) (s : State) : Host.Outcome State Fault Refusal :=
  .next (s.writeResultAndFlag x (s.readV y <<< 1) (shiftedOutLeft (s.readV y)))

/-- `CXNN` (R124): a fresh free byte, masked. Log entry 4. -/
def execRndVxNn (x : Nibble) (nn : Byte) (s : State) : Host.Outcome State Fault Refusal :=
  .next (s.sampleRandom.2.writeV x (s.sampleRandom.1 &&& nn))

end Sys2Proof.Machine
end

