-- ==== Sys2Proof/Machine/Control.lean ====
section
/-! DEFINITION. Control transfer (spec 41_control_flow.md). On entry `PC` is already `A + 2` (R90). -/

namespace Sys2Proof.Machine

/-- `00EE` (R101): pop into `PC`, or report `StackUnderflow` and change nothing else. -/
def execRet (s : State) : Host.Outcome State Fault Refusal :=
  match s.pop with
  | some (a, t) => .next (t.setPc a)
  | none => .next (s.emit (.stackUnderflow (encode .ret) s.instrAddress))

/-- `1NNN` (R102). -/
def execJpNnn (nnn : Addr12) (s : State) : Host.Outcome State Fault Refusal :=
  .next (s.setPc (zextAddr nnn))

/-- `2NNN` (R103, D5, log entry 16): push `PC = A + 2` and jump, or report `StackOverflow` and change nothing
else. -/
def execCallNnn (nnn : Addr12) (s : State) : Host.Outcome State Fault Refusal :=
  match s.push s.pc with
  | some t => .next (t.setPc (zextAddr nnn))
  | none => .next (s.emit (.stackOverflow (encode (.callNnn nnn)) s.instrAddress))

/-- `3XNN` (R104). -/
def execSeVxNn (x : Nibble) (nn : Byte) (s : State) : Host.Outcome State Fault Refusal :=
  .next (s.skipIf (s.readV x == nn))

/-- `4XNN` (R105). -/
def execSneVxNn (x : Nibble) (nn : Byte) (s : State) : Host.Outcome State Fault Refusal :=
  .next (s.skipIf (s.readV x != nn))

/-- `5XY0` (R106). -/
def execSeVxVy (x y : Nibble) (s : State) : Host.Outcome State Fault Refusal :=
  .next (s.skipIf (s.readV x == s.readV y))

/-- `9XY0` (R107). -/
def execSneVxVy (x y : Nibble) (s : State) : Host.Outcome State Fault Refusal :=
  .next (s.skipIf (s.readV x != s.readV y))

/-- `BNNN` (R108, D28): the 16-bit sum, not reduced to 12 bits. Log entry 23. -/
def execJpV0Nnn (nnn : Addr12) (s : State) : Host.Outcome State Fault Refusal :=
  .next (s.setPc (zextAddr nnn + zextByte (s.readV 0x0)))

end Sys2Proof.Machine
end

