-- ==== Sys2Proof/Machine/VideoSink.lean ====
section
/-! DEFINITION. The video sink: its two requests (44_display.md R140 to R142, R145 to R147). -/

namespace Sys2Proof.Machine

/-- `FB[y][x]`; a position outside the frame has no pixel and reads as not lit. -/
def Frame.get (fb : Frame) (x y : Nat) : Bool :=
  if h : y < 32 ∧ x < 64 then (fb[y]'h.1)[x]'h.2 else false

/-- `FB[y][x] <- b`; nothing outside the frame. -/
def Frame.set (fb : Frame) (x y : Nat) (b : Bool) : Frame :=
  if h : y < 32 ∧ x < 64 then Vector.set fb y (Vector.set (fb[y]'h.1) x b h.2) h.1 else fb

/-- `clear_frame()`: every pixel 0 (R141). -/
def clearFrame : Frame := Vector.replicate 32 (Vector.replicate 64 false)

/-- One sprite bit at frame position (x, y): clipped outside the frame (R146), a 0 bit leaves the pixel, a 1 bit
turns it over, and turning a lit pixel off is a collision (R142, R147). -/
def drawPixel (p : Frame × Bool) (x y : Nat) (bit : Bool) : Frame × Bool :=
  if bit && decide (y < 32) && decide (x < 64) then
    (Frame.set p.1 x y (!Frame.get p.1 x y), p.2 || Frame.get p.1 x y)
  else p

/-- One row of a sprite, 8 pixels wide, bit 7 leftmost (R142, R145; log entry 21). -/
def drawRow (p : Frame × Bool) (x0 y : Nat) (row : Byte) : Frame × Bool :=
  (List.range 8).foldl (fun q c => drawPixel q (x0 + c) y (row.getLsbD (7 - c))) p

/-- The rows of a sprite downward from frame row `y` (R142, R145). -/
def drawRows (p : Frame × Bool) (x0 : Nat) : Nat → List Byte → Frame × Bool
  | _, [] => p
  | y, row :: rest => drawRows (drawRow p x0 y row) x0 (y + 1) rest

/-- `draw_sprite(x0, y0, rows) -> collided`: the new frame and the answer (R142). -/
def drawSprite (fb : Frame) (x0 y0 : Nat) (rows : List Byte) : Frame × Bool :=
  drawRows (fb, false) x0 y0 rows

end Sys2Proof.Machine
end

