-- ==== Sys2Proof/Machine/Display.lean ====
section
/-! DEFINITION. Display instructions (spec 44_display.md). -/

namespace Sys2Proof.Machine

/-- `00E0` (R143). -/
def execCls (s : State) : Host.Outcome State Fault Refusal :=
  .next (s.setFb clearFrame)

/-- The request of a `DXYN` and the sink's answer (R144): the core reads the `N` sprite bytes and the position
before anything is written. -/
def drawRequest (x y n : Nibble) (s : State) : Frame × Bool :=
  drawSprite s.fb (spriteColumn (s.readV x)) (spriteRow (s.readV y)) (s.loadBytes s.i n.toNat)

/-- `DXYN` (R144). -/
def execDrwVxVyN (x y n : Nibble) (s : State) : Host.Outcome State Fault Refusal :=
  .next ((s.setFb (drawRequest x y n s).1).writeV 0xF (collisionFlag (drawRequest x y n s).2))

end Sys2Proof.Machine
end

