-- ==== Sys2Proof/Machine/Index.lean ====
section
/-! DEFINITION. Index register and memory instructions (spec 43_index_memory.md). `I` is not advanced (R137,
log entry 18). -/

namespace Sys2Proof.Machine

/-- `ANNN` (R131). -/
def execLdINnn (nnn : Addr12) (s : State) : Host.Outcome State Fault Refusal :=
  .next (s.setI (zextAddr nnn))

/-- `FX1E` (R132): modulo 65536, no flag (log entry 18). -/
def execAddIVx (x : Nibble) (s : State) : Host.Outcome State Fault Refusal :=
  .next (s.setI (s.i + zextByte (s.readV x)))

/-- `FX29` (R133). -/
def execLdFVx (x : Nibble) (s : State) : Host.Outcome State Fault Refusal :=
  .next (s.setI (glyphAddress (s.readV x)))

/-- `FX33` (R134): hundreds, tens, ones at `I`, `I + 1`, `I + 2`. -/
def execLdBVx (x : Nibble) (s : State) : Host.Outcome State Fault Refusal :=
  .next (s.store s.i [hundreds (s.readV x), tens (s.readV x), ones (s.readV x)])

/-- `FX55` (R135): `V[0]` to `V[X]` at `I` on. -/
def execLdMiVx (x : Nibble) (s : State) : Host.Outcome State Fault Refusal :=
  .next (s.store s.i (s.blockRegs (x.toNat + 1)))

/-- `FX65` (R136): `V[0]` to `V[X]` from `I` on. -/
def execLdVxMi (x : Nibble) (s : State) : Host.Outcome State Fault Refusal :=
  .next (s.writeRegs (s.loadBytes s.i (x.toNat + 1)))

end Sys2Proof.Machine
end

