-- ==== Sys2Proof/Machine/Keypad.lean ====
section
/-! DEFINITION. Keypad instructions (spec 45_keypad_timers.md). -/

namespace Sys2Proof.Machine

/-- `EX9E` (R150). -/
def execSkpVx (x : Nibble) (s : State) : Host.Outcome State Fault Refusal :=
  .next (s.skipIf (s.keyPressed (s.readV x)))

/-- `EXA1` (R151). -/
def execSknpVx (x : Nibble) (s : State) : Host.Outcome State Fault Refusal :=
  .next (s.skipIf (!s.keyPressed (s.readV x)))

/-- `FX0A` (R152, R157): while no release is recorded, rewind `PC` to `A`; else deliver `LASTKEY` and clear the
release flag. Log entry 24. -/
def execLdVxK (x : Nibble) (s : State) : Host.Outcome State Fault Refusal :=
  if s.kRel then .next ((s.writeV x (zextKey s.lastKey)).setKRel false)
  else .next (s.setPc (s.pc - 2))

end Sys2Proof.Machine
end

