-- ==== Sys2Proof/Machine/Timers.lean ====
section
/-! DEFINITION. Timer instructions (spec 45_keypad_timers.md) and the audio-enable output (60_exceptions.md R181,
R182). -/

namespace Sys2Proof.Machine

/-- `FX07` (R153). -/
def execLdVxDt (x : Nibble) (s : State) : Host.Outcome State Fault Refusal :=
  .next (s.writeV x s.dt)

/-- `FX15` (R154). -/
def execLdDtVx (x : Nibble) (s : State) : Host.Outcome State Fault Refusal :=
  .next (s.setDt (s.readV x))

/-- `FX18` (R155). -/
def execLdStVx (x : Nibble) (s : State) : Host.Outcome State Fault Refusal :=
  .next (s.setSt (s.readV x))

/-- `AUDIO_EN`: 1 exactly while `ST > 0` (10_state.md R38, 60_exceptions.md R181, D16). Log entry 27. -/
def State.audioEn (s : State) : Bool := decide (0 < s.st.toNat)

/-- The call `set_tone_enabled` that the change from one state to the next makes: at each edge of `AUDIO_EN`, its
new level (60_exceptions.md R182). -/
def toneCall (before after : State) : Option Bool :=
  if before.audioEn = after.audioEn then none else some after.audioEn

end Sys2Proof.Machine
end

