-- ==== Sys2Proof/WellFormed.lean ====
section
/-! DEFINITION. Which terms of the syntax stand for something of the machine. The operand types of `Instr`
carry every bound an instruction has, so the checks that can refuse are those of words and of events. -/

namespace Sys2Proof

/-- "No field value is reserved inside a valid instruction" (30_encoding.md R81): the types of the fields are
the whole check. -/
def Instr.wellFormed : Instr → Bool
  | .cls | .ret => true
  | .jpNnn _ | .callNnn _ | .ldINnn _ | .jpV0Nnn _ => true
  | .seVxNn _ _ | .sneVxNn _ _ | .ldVxNn _ _ | .addVxNn _ _ | .rndVxNn _ _ => true
  | .seVxVy _ _ | .sneVxVy _ _ | .ldVxVy _ _ | .orVxVy _ _ | .andVxVy _ _ | .xorVxVy _ _ => true
  | .addVxVy _ _ | .subVxVy _ _ | .shrVxVy _ _ | .subnVxVy _ _ | .shlVxVy _ _ => true
  | .drwVxVyN _ _ _ => true
  | .skpVx _ | .sknpVx _ | .ldVxDt _ | .ldVxK _ | .ldDtVx _ | .ldStVx _ => true
  | .addIVx _ | .ldFVx _ | .ldBVx _ | .ldMiVx _ | .ldVxMi _ => true

/-- One row of the opcode map: a word `w` is the row's instruction iff `w &&& mask = pattern` (R75). -/
structure OpcodeRow where
  mask : Word
  pattern : Word
  deriving DecidableEq, Repr

/-- The 34 rows of the opcode map, in its order (30_encoding.md R75). -/
def opcodeMap : List OpcodeRow :=
  [⟨0xFFFF, 0x00E0⟩, ⟨0xFFFF, 0x00EE⟩, ⟨0xF000, 0x1000⟩, ⟨0xF000, 0x2000⟩, ⟨0xF000, 0x3000⟩,
   ⟨0xF000, 0x4000⟩, ⟨0xF00F, 0x5000⟩, ⟨0xF000, 0x6000⟩, ⟨0xF000, 0x7000⟩] ++
  [⟨0xF00F, 0x8000⟩, ⟨0xF00F, 0x8001⟩, ⟨0xF00F, 0x8002⟩, ⟨0xF00F, 0x8003⟩, ⟨0xF00F, 0x8004⟩,
   ⟨0xF00F, 0x8005⟩, ⟨0xF00F, 0x8006⟩, ⟨0xF00F, 0x8007⟩, ⟨0xF00F, 0x800E⟩] ++
  [⟨0xF00F, 0x9000⟩, ⟨0xF000, 0xA000⟩, ⟨0xF000, 0xB000⟩, ⟨0xF000, 0xC000⟩, ⟨0xF000, 0xD000⟩,
   ⟨0xF0FF, 0xE09E⟩, ⟨0xF0FF, 0xE0A1⟩] ++
  [⟨0xF0FF, 0xF007⟩, ⟨0xF0FF, 0xF00A⟩, ⟨0xF0FF, 0xF015⟩, ⟨0xF0FF, 0xF018⟩, ⟨0xF0FF, 0xF01E⟩,
   ⟨0xF0FF, 0xF029⟩, ⟨0xF0FF, 0xF033⟩, ⟨0xF0FF, 0xF055⟩, ⟨0xF0FF, 0xF065⟩]

/-- The row of the opcode map an instruction is written in (R75). -/
def Instr.row : Instr → OpcodeRow
  | .cls => ⟨0xFFFF, 0x00E0⟩
  | .ret => ⟨0xFFFF, 0x00EE⟩
  | .jpNnn _ => ⟨0xF000, 0x1000⟩
  | .callNnn _ => ⟨0xF000, 0x2000⟩
  | .seVxNn _ _ => ⟨0xF000, 0x3000⟩
  | .sneVxNn _ _ => ⟨0xF000, 0x4000⟩
  | .seVxVy _ _ => ⟨0xF00F, 0x5000⟩
  | .ldVxNn _ _ => ⟨0xF000, 0x6000⟩
  | .addVxNn _ _ => ⟨0xF000, 0x7000⟩
  | .ldVxVy _ _ => ⟨0xF00F, 0x8000⟩
  | .orVxVy _ _ => ⟨0xF00F, 0x8001⟩
  | .andVxVy _ _ => ⟨0xF00F, 0x8002⟩
  | .xorVxVy _ _ => ⟨0xF00F, 0x8003⟩
  | .addVxVy _ _ => ⟨0xF00F, 0x8004⟩
  | .subVxVy _ _ => ⟨0xF00F, 0x8005⟩
  | .shrVxVy _ _ => ⟨0xF00F, 0x8006⟩
  | .subnVxVy _ _ => ⟨0xF00F, 0x8007⟩
  | .shlVxVy _ _ => ⟨0xF00F, 0x800E⟩
  | .sneVxVy _ _ => ⟨0xF00F, 0x9000⟩
  | .ldINnn _ => ⟨0xF000, 0xA000⟩
  | .jpV0Nnn _ => ⟨0xF000, 0xB000⟩
  | .rndVxNn _ _ => ⟨0xF000, 0xC000⟩
  | .drwVxVyN _ _ _ => ⟨0xF000, 0xD000⟩
  | .skpVx _ => ⟨0xF0FF, 0xE09E⟩
  | .sknpVx _ => ⟨0xF0FF, 0xE0A1⟩
  | .ldVxDt _ => ⟨0xF0FF, 0xF007⟩
  | .ldVxK _ => ⟨0xF0FF, 0xF00A⟩
  | .ldDtVx _ => ⟨0xF0FF, 0xF015⟩
  | .ldStVx _ => ⟨0xF0FF, 0xF018⟩
  | .addIVx _ => ⟨0xF0FF, 0xF01E⟩
  | .ldFVx _ => ⟨0xF0FF, 0xF029⟩
  | .ldBVx _ => ⟨0xF0FF, 0xF033⟩
  | .ldMiVx _ => ⟨0xF0FF, 0xF055⟩
  | .ldVxMi _ => ⟨0xF0FF, 0xF065⟩

/-- Does the word lie in the row (R75)? -/
def OpcodeRow.covers (r : OpcodeRow) (w : Word) : Bool := w &&& r.mask == r.pattern

/-- A word is well formed when some row of the opcode map covers it (R75, R78). -/
def wordWellFormed (w : Word) : Bool := opcodeMap.any (·.covers w)

/-- An event is well formed when the host may send it: an image of 1 to 3584 bytes (70_reset_and_hazards.md
R207, R208), an elapsed time that is not negative (60_exceptions.md R179). A key number needs no check, the
latch's input being 4 bits wide (R185). -/
def Event.wellFormed : Event → Bool
  | .load img => decide (1 ≤ img.length) && decide (img.length ≤ Config.maxImage)
  | .timerAdvance dt => decide (0 ≤ dt)
  | .step | .reset | .tick | .keyDown _ | .keyUp _ => true

end Sys2Proof
end

