-- ==== Sys2Proof/Machine/Events.lean ====
section
/-! DEFINITION. The events other than Step: Reset, Load, Tick, TimerAdvance, KeyDown, KeyUp (spec
70_reset_and_hazards.md sections 1 and 2, 60_exceptions.md sections 4 and 6). -/

namespace Sys2Proof.Machine

/-- What an event does once a Reset has happened; before the first one it is refused (70_reset_and_hazards.md
R203). Log entry 10. -/
def State.afterReset (s : State) (o : Host.Outcome State Fault Refusal) : Host.Outcome State Fault Refusal :=
  if s.hasReset then o else .refused .beforeReset

/-- Reset (R200): memory to zeros and the font, registers, stack, timers and `PC`. It leaves the keypad latch, the
frame and the tick phase alone (R202, D25, log entry 20), and the model's own report history, schedule and count
of draws. -/
def State.resetEvent (s : State) : State :=
  { s with
    v := Vector.replicate 16 0x00
    i := 0x0000
    pc := BitVec.ofNat 16 Config.programStart
    sp := 0
    stack := Vector.replicate 16 0x0000
    dt := 0x00
    st := 0x00
    mem := []
    hasReset := true }

/-- Load (R207): the image's bytes from 0x200 on, nothing else (R209). -/
def State.loadImage (s : State) (img : List Byte) : State :=
  s.store (BitVec.ofNat 16 Config.programStart) img

/-- Load with the host's size check (R207, R208). Log entry 11. -/
def State.loadEvent (s : State) (img : List Byte) : Host.Outcome State Fault Refusal :=
  if (Event.load img).wellFormed then .next (s.loadImage img) else .refused (.imageSize img.length)

/-- One down-counter on one Tick: minus 1, floor at 0 (R178). -/
def countDown (b : Byte) : Byte := if b = 0 then 0 else b - 1

/-- Tick (R178): both timers, nothing else. -/
def State.tickEvent (s : State) : State := (s.setDt (countDown s.dt)).setSt (countDown s.st)

/-- `n` Ticks with no step between (R179). -/
def State.ticks : Nat → State → State
  | 0, s => s
  | n + 1, s => State.ticks n s.tickEvent

/-- How many Ticks the loop of TimerAdvance makes when the accumulator holds `a` seconds: the whole sixtieths in
it (R179). Log entry 6. -/
def wholeTicks (a : Rat) : Nat := (a * Config.tickHz).floor.toNat

/-- TimerAdvance (R179): every whole sixtieth of a second makes a Tick, the remainder is kept. -/
def State.advanceTime (s : State) (elapsed : Rat) : State :=
  (State.ticks (wholeTicks (s.acc + elapsed)) s).setAcc
    (s.acc + elapsed - (wholeTicks (s.acc + elapsed) : Rat) / Config.tickHz)

/-- TimerAdvance for `dt >= 0` (R179). Log entry 6. -/
def State.timerEvent (s : State) (elapsed : Rat) : Host.Outcome State Fault Refusal :=
  if (Event.timerAdvance elapsed).wellFormed then .next (s.advanceTime elapsed) else .refused .negativeTime

/-- KeyDown (R183): `KEYS[k] <- 1`, `LASTKEY <- k`. -/
def State.keyDownEvent (s : State) (k : Nibble) : State :=
  (s.setKeys (s.keys ||| 1#16 <<< k.toNat)).setLastKey k

/-- KeyUp (R184): `KEYS[k] <- 0`, `KREL <- 1`. -/
def State.keyUpEvent (s : State) (k : Nibble) : State :=
  (s.setKeys (s.keys &&& ~~~(1#16 <<< k.toNat))).setKRel true

end Sys2Proof.Machine
end

