-- ==== Sys2Proof/Machine/Cycle.lean ====
section
/-! DEFINITION. The instruction cycle (spec 40_instruction_cycle.md) and the delivery of one event
(00_scope.md R8). -/

namespace Sys2Proof.Machine

/-- Are both bytes of the instruction inside memory: `PC <= 0x0FFE` (R91, 20_memory.md R59)? -/
def State.pcInRange (s : State) : Bool := decide (s.pc.toNat ≤ 0x0FFE)

/-- `MemRead(PC, 2)` for a `PC` in range: big-endian, no mask (R92, 20_memory.md R52, R59). -/
def State.fetchWord (s : State) : Word := wordOfBytes (s.mem.read s.pc.toNat) (s.mem.read (s.pc.toNat + 1))

/-- Dispatch of a fetched word in the state after the advance (R94 to R96): the one handler, or a report of
`InvalidOpcode` that names the word and its address. -/
def dispatch (ir a : Word) (s : State) : Host.Outcome State Fault Refusal :=
  match decode ir with
  | .ok i => exec i s
  | .error _ => .next (s.emit (.invalidOpcode ir a))

/-- One instruction cycle (R90): validate, fetch, advance, decode, execute. With `PC` out of range it reports
and changes nothing (R91, D2, log entry 8). -/
def cycle (s : State) : Host.Outcome State Fault Refusal :=
  if s.pcInRange then dispatch s.fetchWord s.pc s.advance
  else .next (s.emit (.pcOutOfRange s.pc))

/-- The Step event: a cycle, refused before the first Reset (70_reset_and_hazards.md R203, log entry 10). -/
def stepEvent (s : State) : Host.Outcome State Fault Refusal :=
  s.afterReset (cycle s)

/-- Apply one event (00_scope.md R8, 60_exceptions.md R168). Step, Load, Tick and TimerAdvance are refused before
the first Reset (70_reset_and_hazards.md R203). -/
def deliver (e : Event) (s : State) : Host.Outcome State Fault Refusal :=
  match e with
  | .step => stepEvent s
  | .reset => .next s.resetEvent
  | .load img => s.afterReset (s.loadEvent img)
  | .tick => s.afterReset (.next s.tickEvent)
  | .timerAdvance elapsed => s.afterReset (s.timerEvent elapsed)
  | .keyDown k => .next (s.keyDownEvent k)
  | .keyUp k => .next (s.keyUpEvent k)

end Sys2Proof.Machine
end

