-- ==== Sys2Proof/Machine/Step.lean ====
section
/-! DEFINITION. One step of the machine: the next event of the host's schedule. -/

namespace Sys2Proof.Machine

/-- One event: the oldest one waiting in the host's schedule, or a Step when none waits (00_scope.md R8,
60_exceptions.md R168, R170). Log entry 7. -/
def step (s : State) : Host.Outcome State Fault Refusal :=
  match s.inputs with
  | [] => stepEvent s
  | e :: rest => deliver e (s.setInputs rest)

/-- `PC` where a fetch can happen: as it is when in range, else the program start. -/
def State.fetchable (s : State) : State :=
  if s.pcInRange then s else s.setPc (BitVec.ofNat 16 Config.programStart)

/-- `s` with an instruction word stored where the next step fetches, so that the very next step runs it: the two
bytes at `PC`, no event waiting, a Reset done, and a `PC` that can be fetched from. It stands for the Load of a
program (70_reset_and_hazards.md R207, R210). Log entry 25. -/
def State.withFetchWord (s : State) (nbits w : Nat) : State :=
  (((s.fetchable.setMem ((s.fetchable.mem.write s.fetchable.pc.toNat (highByte (tableWord nbits w))).write
    (s.fetchable.pc.toNat + 1) (lowByte (tableWord nbits w)))).setInputs []).setHasReset true)

end Sys2Proof.Machine
end

