-- ==== Sys2Proof/Safety.lean ====
section
/-! DEFINITION. What claims are stated in: invariants, parked and faulted states, runs in which a report counts as
a fault, power-on states. -/

namespace Sys2Proof.Safety

open Sys2Proof.Machine

/-- The invariant of the machine: memory in its canonical form; the accumulator below one sixtieth of a second
(60_exceptions.md R179); `PC` at most 0x10FE and every stack slot at most 0x1000, the bounds of 10_state.md R25
and 41_control_flow.md R101. (`0 <= SP <= 16`, R31, is the type of `SP`.) -/
structure Inv (s : State) : Prop where
  mem_wf : s.mem.wf
  acc_nonneg : 0 ≤ s.acc
  acc_lt : s.acc < 1 / 60
  pc_le : s.pc.toNat ≤ 0x10FE
  stack_le : ∀ j : Fin 16, s.stack[j].toNat ≤ 0x1000

/-- A parked state: the next instruction is `1NNN` with `NNN = PC` (70_reset_and_hazards.md R213). -/
def parked (s : State) : Prop :=
  s.pc.toNat ≤ 0x0FFE ∧ ∃ nnn, decode s.fetchWord = .ok (.jpNnn nnn) ∧ zextAddr nnn = s.pc

/-- A state stuck in `PcOutOfRange`: a fault in the spec's sense, "a state that is never final" (40_instruction_cycle.md
R91, 70_reset_and_hazards.md R213, 93_implementation_defined.md U8). -/
def faulted (s : State) : Prop := 0x0FFE < s.pc.toNat

/-- A step in which a report counts as a fault of the program (93_implementation_defined.md U12, 60_exceptions.md
R160). Log entry 28. -/
def strictStep (s : State) : Host.Outcome State Fault Refusal :=
  match step (s.setReports []) with
  | .next t => match t.reports with
    | [] => .next (t.setReports s.reports)
    | r :: _ => .fault (.reported r)
  | .fault r => .fault r
  | .refused r => .refused r

/-- The sprite bit at column `c` of the row byte: bit 7 is the leftmost pixel, and a row is 8 pixels wide
(44_display.md R145). -/
def rowBit (row : Byte) (c : Nat) : Bool := decide (c < 8) && row.getLsbD (7 - c)

/-- The bit that a sprite with its top left pixel at (x0, y0) has over frame position (x, y): row `y - y0`, column
`x - x0`, and 0 where the sprite does not reach (44_display.md R142, R145). -/
def spriteBit (x0 y0 : Nat) (rows : List Byte) (x y : Nat) : Bool :=
  decide (x0 ≤ x ∧ y0 ≤ y) && rowBit (rows.getD (y - y0) 0) (x - x0)

/-- A power-on state, before any Reset: the keypad latch and the frame have their power-on values and everything
else any value (70_reset_and_hazards.md R203, D14). -/
structure poweredOn (s : State) : Prop where
  no_reset : s.hasReset = false
  keys_zero : s.keys = 0
  lastKey_zero : s.lastKey = 0
  kRel_clear : s.kRel = false
  fb_init : s.fb = Config.fbInit

end Sys2Proof.Safety
end

