-- ==== Sys2Proof/Certificates/Slice0/Obligations.lean ====
section
/-! DEFINITION. The statements for the provers, from the numbered rules of the spec. `exec i s` starts from the
state the cycle leaves (`PC = A + 2`, R90), so `s.pc` below is `A + 2` where an instruction executes. A clause
`t = { s with f := t.f }` says that `t` differs from `s` in the named fields at most: it is the frame. -/

section Encoding

open Sys2Proof Sys2Proof.Machine Sys2Proof.Safety

/-- R70 to R75, R77: the decoder reads back every instruction from its word and from its two bytes, whatever bytes
follow, at every value of every operand. -/
def Obligations.DecodeOfEncodeIsTheInstruction : Prop :=
  ∀ (i : Instr) (rest : List Byte),
    decode (encode i) = .ok i ∧ decodeBytes (encodeBytes i ++ rest) = .ok (i, rest)

/-- The decoder is injective: no two words decode to the same instruction. It follows from the fields of R72 and the
patterns of R75 with R76's check of every fixed digit of a pattern, which is the spec's decision D4 (log entry 15);
R77 says that the decoder is a function. -/
def Obligations.EncodeOfDecodeIsTheWord : Prop :=
  ∀ (w : Word) (i : Instr), decode w = .ok i → encode i = w

/-- A word is an instruction if and only if some row's mask and match accept it (R75, R76), it then lies in its own
instruction's row, and the 34 patterns are pairwise disjoint (R77). That every fixed digit is checked is the spec's
decision D4 (log entry 15); which function codes of `8XY_` the rows of SHR and SUBN carry is presumed (G4, log entry
30). -/
def Obligations.DecoderAcceptsExactlyTheOpcodeMap : Prop :=
  opcodeMap.length = 34 ∧
  ∀ w : Word, ((∃ i, decode w = .ok i) ↔ ∃ r ∈ opcodeMap, w &&& r.mask = r.pattern) ∧
    (∀ i, decode w = .ok i → i.row ∈ opcodeMap ∧ w &&& i.row.mask = i.row.pattern) ∧
    (∀ r ∈ opcodeMap, ∀ q ∈ opcodeMap, w &&& r.mask = r.pattern → w &&& q.mask = q.pattern → r = q)

/-- The invalid words (R76, and R78, which the spec derives), family by family, and the name the decoder rejects
each with. (That every fixed digit is checked is the spec's decision D4, log entry 15.) -/
def Obligations.DecoderRejectsExactlyTheInvalidFamilies : Prop :=
  ∀ w : Word,
    (decode w = .error .invalid0 ↔ fieldOp w = 0x0 ∧ w ≠ 0x00E0 ∧ w ≠ 0x00EE) ∧
    (decode w = .error .invalid5 ↔ fieldOp w = 0x5 ∧ fieldN w ≠ 0) ∧
    (decode w = .error .invalid8 ↔ fieldOp w = 0x8 ∧ 8 ≤ (fieldN w).toNat ∧ fieldN w ≠ 0xE) ∧
    (decode w = .error .invalid9 ↔ fieldOp w = 0x9 ∧ fieldN w ≠ 0) ∧
    (decode w = .error .invalidE ↔ fieldOp w = 0xE ∧ fieldNN w ≠ 0x9E ∧ fieldNN w ≠ 0xA1) ∧
    (decode w = .error .invalidF ↔ fieldOp w = 0xF ∧
      fieldNN w ∉ ([0x07, 0x0A, 0x15, 0x18, 0x1E, 0x29, 0x33, 0x55, 0x65] : List Byte)) ∧
    decode w ≠ .error .truncated

/-- Words written out from the spec's patterns (R72, R75; 95_test_vectors.md E1 to E6, E9): a sanity check. -/
def Obligations.SampleWordsDecodeAsWritten : Prop :=
  decode 0x1234 = .ok (.jpNnn 0x234) ∧ decode 0xD12F = .ok (.drwVxVyN 1 2 0xF) ∧
  decode 0x8AB4 = .ok (.addVxVy 0xA 0xB) ∧ decode 0x3C7F = .ok (.seVxNn 0xC 0x7F) ∧
  decode 0xA123 = .ok (.ldINnn 0x123) ∧ decode 0xF165 = .ok (.ldVxMi 1) ∧ decode 0xE09E = .ok (.skpVx 0) ∧
  decode 0x00EE = .ok .ret ∧ decode 0x5001 = .error .invalid5 ∧ decode 0x8008 = .error .invalid8

end Encoding

section Cycle

open Sys2Proof Sys2Proof.Machine Sys2Proof.Safety

/-- R92, R93, R95, with the big-endian fetch of R52: with no event of the host waiting, a step runs the decoded
instruction on the state whose `PC` is already past it. -/
def Obligations.StepRunsTheDecodedInstruction : Prop :=
  ∀ (s : State) (ir : Word) (i : Instr), s.inputs = [] → s.hasReset = true → s.pc.toNat ≤ 0x0FFE →
    ir.toNat = 256 * (s.mem.read s.pc.toNat).toNat + (s.mem.read (s.pc.toNat + 1)).toNat →
    decode ir = .ok i → step s = exec i { s with pc := s.pc + 2 }

/-- R96, R161: an invalid word is fetched, `PC` moves past it, the report carries the word and its address, and
nothing else changes. (`reports` is the model's record of the report output, log entry 9; the number 1 and the
payload of the report are the spec's own choice, R165, D13.) -/
def Obligations.InvalidWordIsAReportedNoOperation : Prop :=
  ∀ (s : State) (ir : Word) (e : DecodeError), s.inputs = [] → s.hasReset = true → s.pc.toNat ≤ 0x0FFE →
    ir.toNat = 256 * (s.mem.read s.pc.toNat).toNat + (s.mem.read (s.pc.toNat + 1)).toNat →
    decode ir = .error e →
    step s = .next { s with pc := s.pc + 2, reports := .invalidOpcode ir s.pc :: s.reports } ∧
    (Report.invalidOpcode ir s.pc).code = 1

/-- R91, R164: a step that finds `PC > 0x0FFE` reports it with the value of `PC` and changes nothing, and so does
every later one (the spec's decision D2; that the step is a next state and not a stop is the model's choice, log
entry 8). -/
def Obligations.PcOutOfRangeOnlyReportsForEver : Prop :=
  ∀ (s : State) (n : Nat), s.inputs = [] → s.hasReset = true → 0x0FFE < s.pc.toNat →
    Host.Core.run Sys2Proof.core n s =
      .next { s with reports := List.replicate n (.pcOutOfRange s.pc) ++ s.reports } ∧
    (Report.pcOutOfRange s.pc).code = 4

/-- R97, which the spec derives: no handler but those of `2NNN` and `00EE` reports, and they only with the stack
full or empty. -/
def Obligations.OnlyCallAndReturnReport : Prop :=
  ∀ (i : Instr) (s t : State), exec i s = .next t →
    t.reports = s.reports ∨
    (∃ nnn, i = .callNnn nnn ∧ s.sp.val = 16 ∧ t.reports = .stackOverflow (encode i) (s.pc - 2) :: s.reports) ∨
    (i = .ret ∧ s.sp.val = 0 ∧ t.reports = .stackUnderflow 0x00EE (s.pc - 2) :: s.reports)

/-- R97, R169, which the spec derives: a step makes at most one report, and a step that delivers another event of
the host makes none. -/
def Obligations.AtMostOneReportInAStep : Prop :=
  ∀ s t : State, step s = .next t →
    (t.reports = s.reports ∨ ∃ r, t.reports = r :: s.reports) ∧
    (∀ e rest, s.inputs = e :: rest → e ≠ .step → t.reports = s.reports)

/-- R160 (with the spec's decision D13): no report feeds back into the core: two states that differ in the report
history only take steps that differ in it only. -/
def Obligations.ReportsDoNotFeedBack : Prop :=
  ∀ (s : State) (rs : List Report),
    match step s, step { s with reports := rs } with
    | .next t, .next u => u = { t with reports := u.reports } ∧
        ∃ new, t.reports = new ++ s.reports ∧ u.reports = new ++ rs
    | .refused a, .refused b => a = b
    | _, _ => False

/-- R90, R77: every instruction, in every state and with every operand, completes in a next state: no instruction
stops the machine. -/
def Obligations.EveryInstructionCompletes : Prop :=
  ∀ (i : Instr) (s : State), ∃ t, exec i s = .next t

/-- After the first Reset the only thing the machine refuses is an event the host must not send: the model's choice
of refusals, log entries 6, 10, 11. -/
def Obligations.OnlyIllFormedEventsAreRefused : Prop :=
  ∀ s : State, s.hasReset = true →
    ((∃ t, step s = .next t) ↔ ∀ e rest, s.inputs = e :: rest → e.wellFormed = true)

/-- R63: a store is seen by the next fetch. The bytes are the ones `FX55` stored, two registers in a row, and the
fetch is at the address they went to. -/
def Obligations.StoredBytesAreFetched : Prop :=
  ∀ (s t : State) (x : Nibble) (k : Nat), s.mem.wf → k < x.toNat → exec (.ldMiVx x) s = .next t →
    ea (indexed s.i k) ≤ 0x0FFE →
    (t.mem.read (ea (indexed s.i k)) = s.readV (BitVec.ofNat 4 k) ∧
      t.mem.read (ea (indexed s.i k) + 1) = s.readV (BitVec.ofNat 4 (k + 1))) ∧
    ∀ u : State, u.mem = t.mem → u.inputs = [] → u.hasReset = true → u.pc.toNat = ea (indexed s.i k) →
      ∀ i, decode (s.readV (BitVec.ofNat 4 k) ++ s.readV (BitVec.ofNat 4 (k + 1))) = .ok i →
        step u = exec i { u with pc := u.pc + 2 }

/-- The model's own: an instruction word placed by `withFetchWord` is what the very next step runs (log entries 25,
26). -/
def Obligations.PlacedWordRunsNext : Prop :=
  ∀ (s : State) (w : Nat) (i : Instr), s.mem.wf → decodeTableWord 16 w = some i →
    step (s.withFetchWord 16 w) =
      exec i { s.withFetchWord 16 w with pc := (s.withFetchWord 16 w).pc + 2 }

/-- R213 (with the spec's convention D21): a Step in a parked state is a fixed point, of the whole state. -/
def Obligations.ParkedStateIsAFixedPoint : Prop :=
  ∀ s : State, s.inputs = [] → s.hasReset = true → parked s → step s = .next s

end Cycle

section Control

open Sys2Proof Sys2Proof.Machine Sys2Proof.Safety

/-- R101, R163: with an occupied slot (`SP = j + 1`), `00EE` takes the most recent push, slot `j`, as it is; with
none it reports and changes nothing. `s.pc = A + 2`. (That the popped slot keeps its content is the spec's decision
D22, log entry 19; the payload and the number 3 of the report are the spec's own, R160, R165, D13, and `reports` is
the model's record of it, log entry 9.) -/
def Obligations.ReturnPopsOrReportsUnderflow : Prop :=
  ∀ (s : State) (a : Word), s.pc = a + 2 →
    (∀ j : Fin 16, s.sp = j.succ → exec .ret s = .next { s with sp := j.castSucc, pc := s.stack[j] }) ∧
    (s.sp = 0 → exec .ret s = .next { s with reports := .stackUnderflow 0x00EE a :: s.reports } ∧
      (Report.stackUnderflow 0x00EE a).code = 3)

/-- R103, R162 (with the spec's decision D5, log entry 16): with a free slot (`SP = j`), `2NNN` pushes `PC = A + 2`
into slot `j` and jumps; with 16 occupied slots it reports and the whole instruction is a no-operation. -/
def Obligations.CallPushesOrReportsOverflow : Prop :=
  ∀ (s : State) (a : Word) (nnn : Addr12), s.pc = a + 2 →
    (∀ j : Fin 16, s.sp = j.castSucc → exec (.callNnn nnn) s =
      .next { s with stack := s.stack.set j.val (a + 2) j.isLt, sp := j.succ, pc := nnn.setWidth 16 }) ∧
    (s.sp.val = 16 → exec (.callNnn nnn) s =
        .next { s with reports := .stackOverflow (encode (.callNnn nnn)) a :: s.reports } ∧
      (Report.stackOverflow (encode (.callNnn nnn)) a).code = 2)

/-- R101, R103 together (the round trip of the source's section 8): a return from the state a call leaves, however
the other fields have changed in between, comes back behind the call with the slot count it had before. -/
def Obligations.ReturnUndoesCall : Prop :=
  ∀ (s : State) (nnn : Addr12), s.sp.val < 16 → ∃ t, exec (.callNnn nnn) s = .next t ∧ t.pc = nnn.setWidth 16 ∧
    ∀ u : State, u.sp = t.sp → u.stack = t.stack → ∃ w, exec .ret u = .next w ∧ w.pc = s.pc ∧ w.sp = s.sp ∧
      w = { u with pc := w.pc, sp := w.sp }

/-- R102, R108: `1NNN` sets `PC` to `NNN`; `BNNN` to the sum `NNN + V[0]`, not reduced to 12 bits (the spec's
decision D28, log entry 23). -/
def Obligations.JumpsSetPc : Prop :=
  ∀ (s : State) (nnn : Addr12),
    (∃ p : Word, exec (.jpNnn nnn) s = .next { s with pc := p } ∧ p.toNat = nnn.toNat) ∧
    (∃ p : Word, exec (.jpV0Nnn nnn) s = .next { s with pc := p } ∧ p.toNat = nnn.toNat + (s.readV 0).toNat)

/-- R104 to R107: the register-comparing skips change `PC` exactly when their condition holds, and nothing else.
(That a skip adds 2 to the advanced `PC`, modulo 65536, is R100, which the spec derives and marks as its decision
D23, log entry 23.) -/
def Obligations.RegisterSkipsTestEquality : Prop :=
  ∀ (s : State) (x y : Nibble) (nn : Byte),
    exec (.seVxNn x nn) s = .next { s with pc := if s.readV x = nn then s.pc + 2 else s.pc } ∧
    exec (.sneVxNn x nn) s = .next { s with pc := if s.readV x ≠ nn then s.pc + 2 else s.pc } ∧
    exec (.seVxVy x y) s = .next { s with pc := if s.readV x = s.readV y then s.pc + 2 else s.pc } ∧
    exec (.sneVxVy x y) s = .next { s with pc := if s.readV x ≠ s.readV y then s.pc + 2 else s.pc }

/-- R150, R151, R156: `EX9E` skips when the key numbered by the whole byte `V[X]` is down, `EXA1` when it is not,
and a number of 16 or more is no key (the spec's decision D7, log entry 14); nothing else changes. -/
def Obligations.KeySkipsTestTheLatch : Prop :=
  ∀ (s : State) (x : Nibble),
    ((∃ k : Fin 16, (s.readV x).toNat = k.val ∧ s.keys.getLsbD k.val = true) →
      exec (.skpVx x) s = .next { s with pc := s.pc + 2 } ∧ exec (.sknpVx x) s = .next s) ∧
    ((∀ k : Fin 16, (s.readV x).toNat = k.val → s.keys.getLsbD k.val = false) →
      exec (.skpVx x) s = .next s ∧ exec (.sknpVx x) s = .next { s with pc := s.pc + 2 })

/-- R24, R109, which the spec derives: only the control transfers, the skips and a waiting `FX0A` leave `PC` at
other than `A + 2`. -/
def Obligations.PcIsChangedOnlyByControlTransfers : Prop :=
  ∀ (i : Instr) (s t : State), exec i s = .next t → t.pc ≠ s.pc →
    i = .ret ∨ (∃ n, i = .jpNnn n) ∨ (∃ n, i = .callNnn n) ∨ (∃ n, i = .jpV0Nnn n) ∨
    (t.pc = s.pc + 2 ∧ ((∃ x n, i = .seVxNn x n) ∨ (∃ x n, i = .sneVxNn x n) ∨ (∃ x y, i = .seVxVy x y) ∨
      (∃ x y, i = .sneVxVy x y) ∨ (∃ x, i = .skpVx x) ∨ (∃ x, i = .sknpVx x))) ∨
    (t.pc = s.pc - 2 ∧ s.kRel = false ∧ ∃ x, i = .ldVxK x)

end Control

section Alu

open Sys2Proof Sys2Proof.Machine Sys2Proof.Safety

/-- R113, R114, R115: load immediate, add immediate modulo 256 with no flag, copy; every other register, `V[0xF]`
among them, and every other field unchanged. -/
def Obligations.ImmediateOperationsWriteOneRegister : Prop :=
  ∀ (s : State) (x y : Nibble) (nn : Byte),
    (∃ t, exec (.ldVxNn x nn) s = .next t ∧ t = { s with v := t.v } ∧ t.readV x = nn ∧
      ∀ r, r ≠ x → t.readV r = s.readV r) ∧
    (∃ t, exec (.addVxNn x nn) s = .next t ∧ t = { s with v := t.v } ∧
      (t.readV x).toNat = ((s.readV x).toNat + nn.toNat) % 256 ∧ ∀ r, r ≠ x → t.readV r = s.readV r) ∧
    (∃ t, exec (.ldVxVy x y) s = .next t ∧ t = { s with v := t.v } ∧ t.readV x = s.readV y ∧
      ∀ r, r ≠ x → t.readV r = s.readV r)

/-- R116, R117, R118: the bitwise operations, bit by bit. (That `V[0xF]` is left unchanged unless it is the
destination is R27 with the spec's decision D17, log entry 18.) -/
def Obligations.BitwiseOperationsLeaveTheFlag : Prop :=
  ∀ (s : State) (x y : Nibble),
    (∃ t, exec (.orVxVy x y) s = .next t ∧ t = { s with v := t.v } ∧ (∀ r, r ≠ x → t.readV r = s.readV r) ∧
      ∀ k, (t.readV x).getLsbD k = ((s.readV x).getLsbD k || (s.readV y).getLsbD k)) ∧
    (∃ t, exec (.andVxVy x y) s = .next t ∧ t = { s with v := t.v } ∧ (∀ r, r ≠ x → t.readV r = s.readV r) ∧
      ∀ k, (t.readV x).getLsbD k = ((s.readV x).getLsbD k && (s.readV y).getLsbD k)) ∧
    (∃ t, exec (.xorVxVy x y) s = .next t ∧ t = { s with v := t.v } ∧ (∀ r, r ≠ x → t.readV r = s.readV r) ∧
      ∀ k, (t.readV x).getLsbD k = ((s.readV x).getLsbD k ^^ (s.readV y).getLsbD k))

/-- R119, R111, R112: sum modulo 256, `V[0xF]` the carry of the operands from before, the flag winning when `X =
0xF` (the spec's decision D6, log entry 13). -/
def Obligations.AddSetsTheCarry : Prop :=
  ∀ (s : State) (x y : Nibble), ∃ t, exec (.addVxVy x y) s = .next t ∧ t = { s with v := t.v } ∧
    (x ≠ 0xF → (t.readV x).toNat = ((s.readV x).toNat + (s.readV y).toNat) % 256) ∧
    t.readV 0xF = (if 255 < (s.readV x).toNat + (s.readV y).toNat then 1 else 0) ∧
    ∀ r, r ≠ x → r ≠ 0xF → t.readV r = s.readV r

/-- R120, R122, R111, R112: both subtractions modulo 256, `V[0xF]` 1 for no borrow, the flag winning when `X = 0xF`
(the spec's decision D6, log entry 13). -/
def Obligations.SubtractionsSetNoBorrow : Prop :=
  ∀ (s : State) (x y : Nibble),
    (∃ t, exec (.subVxVy x y) s = .next t ∧ t = { s with v := t.v } ∧
      (x ≠ 0xF → ((t.readV x).toNat : Int) = ((s.readV x).toNat - (s.readV y).toNat : Int) % 256) ∧
      t.readV 0xF = (if (s.readV y).toNat ≤ (s.readV x).toNat then 1 else 0) ∧
      ∀ r, r ≠ x → r ≠ 0xF → t.readV r = s.readV r) ∧
    (∃ t, exec (.subnVxVy x y) s = .next t ∧ t = { s with v := t.v } ∧
      (x ≠ 0xF → ((t.readV x).toNat : Int) = ((s.readV y).toNat - (s.readV x).toNat : Int) % 256) ∧
      t.readV 0xF = (if (s.readV x).toNat ≤ (s.readV y).toNat then 1 else 0) ∧
      ∀ r, r ≠ x → r ≠ 0xF → t.readV r = s.readV r)

/-- R121, R123, R111, R112: the shifts take `V[Y]`, move by one, and `V[0xF]` is the bit moved out, the flag winning
when `X = 0xF` (the spec's decision D6, log entry 13). -/
def Obligations.ShiftsMoveVyAndKeepTheBitOut : Prop :=
  ∀ (s : State) (x y : Nibble),
    (∃ t, exec (.shrVxVy x y) s = .next t ∧ t = { s with v := t.v } ∧
      (x ≠ 0xF → (t.readV x).toNat = (s.readV y).toNat / 2) ∧
      (t.readV 0xF).toNat = (s.readV y).toNat % 2 ∧ ∀ r, r ≠ x → r ≠ 0xF → t.readV r = s.readV r) ∧
    (∃ t, exec (.shlVxVy x y) s = .next t ∧ t = { s with v := t.v } ∧
      (x ≠ 0xF → (t.readV x).toNat = 2 * (s.readV y).toNat % 256) ∧
      (t.readV 0xF).toNat = (s.readV y).toNat / 128 ∧ ∀ r, r ≠ x → r ≠ 0xF → t.readV r = s.readV r)

/-- R124, R187: `CXNN` writes some byte masked by `NN` and nothing else; what a program can rely on is that the
result has no bit outside `NN` and does not exceed it. (`draws` counts the samples, the model's own field, log entry
4; nothing is said of the byte.) -/
def Obligations.RandomByteIsMasked : Prop :=
  ∀ (s : State) (x : Nibble) (nn : Byte), ∃ t r, exec (.rndVxNn x nn) s = .next t ∧
    t = { s with v := t.v, draws := s.draws + 1 } ∧ t.readV x = r &&& nn ∧
    t.readV x &&& nn = t.readV x ∧ (t.readV x).toNat ≤ nn.toNat ∧ ∀ q, q ≠ x → t.readV q = s.readV q

/-- R27, R21 (with the spec's decision D17, log entry 18): what can change `V[0xF]`: the five flag-writing
operations, `DXYN`, and an instruction whose destination it is. -/
def Obligations.FlagRegisterWriters : Prop :=
  ∀ (i : Instr) (s t : State), exec i s = .next t → t.readV 0xF ≠ s.readV 0xF →
    (∃ x y, i = .addVxVy x y ∨ i = .subVxVy x y ∨ i = .shrVxVy x y ∨ i = .subnVxVy x y ∨ i = .shlVxVy x y) ∨
    (∃ x y n, i = .drwVxVyN x y n) ∨
    (∃ n, i = .ldVxNn 0xF n ∨ i = .addVxNn 0xF n ∨ i = .rndVxNn 0xF n) ∨
    (∃ y, i = .ldVxVy 0xF y ∨ i = .orVxVy 0xF y ∨ i = .andVxVy 0xF y ∨ i = .xorVxVy 0xF y) ∨
    i = .ldVxDt 0xF ∨ i = .ldVxK 0xF ∨ i = .ldVxMi 0xF

end Alu

section IndexAndMemory

open Sys2Proof Sys2Proof.Machine Sys2Proof.Safety

/-- R131, R132, R133: what `I` becomes, and nothing else changes, `V[0xF]` and memory included (the spec's decisions
D17, D18, D29, log entries 17, 18, 23). -/
def Obligations.IndexInstructionsSetI : Prop :=
  ∀ (s : State) (x : Nibble) (nnn : Addr12),
    (∃ a : Word, exec (.ldINnn nnn) s = .next { s with i := a } ∧ a.toNat = nnn.toNat) ∧
    (∃ a : Word, exec (.addIVx x) s = .next { s with i := a } ∧
      a.toNat = (s.i.toNat + (s.readV x).toNat) % 65536) ∧
    (∃ a : Word, exec (.ldFVx x) s = .next { s with i := a } ∧
      a.toNat = Config.fontBase.val + 5 * (s.readV x).toNat)

/-- R134, R137, R57: `FX33` stores hundreds, tens and ones at `I`, `I + 1`, `I + 2`, each address reduced modulo
4096 (the spec's decision D3, log entry 12); every byte outside these three reads as before, and `I` and every
register are unchanged. The stored values need memory in its canonical form, which every step keeps
(`StepKeepsTheInvariant`). -/
def Obligations.DecimalStoreWritesThreeDigits : Prop :=
  ∀ (s : State) (x : Nibble), ∃ t, exec (.ldBVx x) s = .next t ∧ t = { s with mem := t.mem } ∧
    (∀ k < 3, ea (indexed s.i k) = (s.i.toNat + k) % 4096) ∧
    (∀ a, (∀ k < 3, a ≠ ea (indexed s.i k)) → t.mem.read a = s.mem.read a) ∧
    (s.mem.wf →
      (t.mem.read (ea (indexed s.i 0))).toNat = (s.readV x).toNat / 100 ∧
      (t.mem.read (ea (indexed s.i 1))).toNat = (s.readV x).toNat / 10 % 10 ∧
      (t.mem.read (ea (indexed s.i 2))).toNat = (s.readV x).toNat % 10)

/-- R135, R137, R57: `FX55` stores `V[0]` to `V[X]` at `I` to `I + X`, each address reduced modulo 4096 (D3, log
entry 12); every byte outside reads as before, and `I` and every register are unchanged. -/
def Obligations.BlockStoreWritesRegisters : Prop :=
  ∀ (s : State) (x : Nibble), ∃ t, exec (.ldMiVx x) s = .next t ∧ t = { s with mem := t.mem } ∧
    (∀ k ≤ x.toNat, ea (indexed s.i k) = (s.i.toNat + k) % 4096) ∧
    (∀ a, (∀ k ≤ x.toNat, a ≠ ea (indexed s.i k)) → t.mem.read a = s.mem.read a) ∧
    (s.mem.wf → ∀ k : Nibble, k.toNat ≤ x.toNat → t.mem.read (ea (indexed s.i k.toNat)) = s.readV k)

/-- R136, R137, R57: `FX65` loads `V[0]` to `V[X]` from `I` to `I + X`, each address reduced modulo 4096 (D3, log
entry 12); registers above `V[X]`, memory, `I` and every other field are unchanged. -/
def Obligations.BlockLoadReadsRegisters : Prop :=
  ∀ (s : State) (x : Nibble), ∃ t, exec (.ldVxMi x) s = .next t ∧ t = { s with v := t.v } ∧
    (∀ r : Nibble, r.toNat ≤ x.toNat →
      t.readV r = s.mem.read (ea (indexed s.i r.toNat)) ∧ ea (indexed s.i r.toNat) = (s.i.toNat + r.toNat) % 4096) ∧
    (∀ r : Nibble, x.toNat < r.toNat → t.readV r = s.readV r)

/-- R135, R136 together: a block load after a block store through the same `I` brings the registers back, whatever
happened to registers in between. -/
def Obligations.BlockLoadUndoesBlockStore : Prop :=
  ∀ (s t u : State) (x : Nibble), s.mem.wf → exec (.ldMiVx x) s = .next t → u.mem = t.mem → u.i = s.i →
    ∃ w, exec (.ldVxMi x) u = .next w ∧ w.mem = u.mem ∧ ∀ r : Nibble,
      w.readV r = if r.toNat ≤ x.toNat then s.readV r else u.readV r

/-- R175, which the spec derives from R29, R31, R33 to R37, R40, R56: each piece of state is changed by the
instructions the spec names and by no other; the latch but for `KREL`, the tick phase and the host's schedule by
none. -/
def Obligations.EachFieldHasItsWriters : Prop :=
  ∀ (i : Instr) (s t : State), exec i s = .next t →
    t.keys = s.keys ∧ t.lastKey = s.lastKey ∧ t.acc = s.acc ∧ t.hasReset = s.hasReset ∧ t.inputs = s.inputs ∧
    (t.i ≠ s.i → (∃ n, i = .ldINnn n) ∨ (∃ x, i = .addIVx x) ∨ ∃ x, i = .ldFVx x) ∧
    (t.sp ≠ s.sp ∨ t.stack ≠ s.stack → i = .ret ∨ ∃ n, i = .callNnn n) ∧
    (t.dt ≠ s.dt → ∃ x, i = .ldDtVx x) ∧
    (t.st ≠ s.st → ∃ x, i = .ldStVx x) ∧
    (t.kRel ≠ s.kRel → s.kRel = true ∧ t.kRel = false ∧ ∃ x, i = .ldVxK x) ∧
    (t.fb ≠ s.fb → i = .cls ∨ ∃ x y n, i = .drwVxVyN x y n) ∧
    ((∃ a, t.mem.read a ≠ s.mem.read a) → (∃ x, i = .ldBVx x) ∨ ∃ x, i = .ldMiVx x)

/-- R32, the spec's decision D22, log entry 19: what a pop leaves above `SP` cannot be observed: two states that
agree but for stack slots at index `SP` or above stay so through every instruction. -/
def Obligations.PoppedSlotsAreUnobservable : Prop :=
  ∀ (i : Instr) (s : State) (k : Vector Word 16),
    (∀ j : Fin 16, j.val < s.sp.val → k[j] = s.stack[j]) →
    ∃ t u, exec i s = .next t ∧ exec i { s with stack := k } = .next u ∧ u = { t with stack := u.stack } ∧
      ∀ j : Fin 16, j.val < t.sp.val → u.stack[j] = t.stack[j]

end IndexAndMemory

section Display

open Sys2Proof Sys2Proof.Machine Sys2Proof.Safety

/-- R141, R143: `00E0` makes every pixel 0 and changes nothing else, `V[0xF]` included. -/
def Obligations.ClearMakesEveryPixelZero : Prop :=
  ∀ s : State, ∃ t, exec .cls s = .next t ∧ t = { s with fb := t.fb } ∧
    ∀ (y : Fin 32) (x : Fin 64), t.fb[y][x] = false

/-- R142, R144, R145, R146: `DXYN` turns over exactly the pixels of the frame that lie under a 1 bit of the sprite
placed at `(V[X] mod 64, V[Y] mod 32)`, clipped at the edges (the row width, the bit order and the axes are
presumed, D10, log entry 21); registers but `V[0xF]`, memory and `I` are unchanged. -/
def Obligations.DrawTurnsOverThePixelsUnderTheSprite : Prop :=
  ∀ (s : State) (x y n : Nibble) (rows : List Byte), rows.length = n.toNat →
    (∀ r (h : r < rows.length), rows[r] = s.mem.read (ea (indexed s.i r))) →
    ∃ t, exec (.drwVxVyN x y n) s = .next t ∧ t = { s with v := t.v, fb := t.fb } ∧
      (∀ q, q ≠ 0xF → t.readV q = s.readV q) ∧
      ∀ (row : Fin 32) (col : Fin 64), t.fb[row][col] =
        (s.fb[row][col] ^^ spriteBit ((s.readV x).toNat % 64) ((s.readV y).toNat % 32) rows col.val row.val)

/-- R144, R147: `V[0xF]` is 1 exactly when some 1 bit of the sprite falls on a pixel of the frame that was lit
before, and 0 otherwise; it is written every time (geometry presumed, D10, log entry 21; `N = 0` is D24, log entry
22). -/
def Obligations.DrawSetsTheCollisionFlag : Prop :=
  ∀ (s t : State) (x y n : Nibble) (rows : List Byte), rows.length = n.toNat →
    (∀ r (h : r < rows.length), rows[r] = s.mem.read (ea (indexed s.i r))) →
    exec (.drwVxVyN x y n) s = .next t →
    (t.readV 0xF = 1 ∨ t.readV 0xF = 0) ∧
    (t.readV 0xF = 1 ↔ ∃ (row : Fin 32) (col : Fin 64), s.fb[row][col] = true ∧
      spriteBit ((s.readV x).toNat % 64) ((s.readV y).toNat % 32) rows col.val row.val = true)

/-- The source's section 8 (95_test_vectors.md S6), from R142, R144 and R147: drawing the same sprite twice at the
same place restores the frame; from a blank frame the first draw does not collide, and the second does exactly when
the first lit a pixel. -/
def Obligations.DrawingTwiceRestoresTheFrame : Prop :=
  ∀ (s : State) (x y n : Nibble), x ≠ 0xF → y ≠ 0xF →
    ∃ t u, exec (.drwVxVyN x y n) s = .next t ∧ exec (.drwVxVyN x y n) t = .next u ∧ u.fb = s.fb ∧
      ((∀ (row : Fin 32) (col : Fin 64), s.fb[row][col] = false) →
        t.readV 0xF = 0 ∧ (u.readV 0xF = 1 ↔ t.fb ≠ s.fb))

end Display

section KeypadAndTimers

open Sys2Proof Sys2Proof.Machine Sys2Proof.Safety

/-- R152: with no release recorded `FX0A` only rewinds `PC` to `A`; with one it delivers `LASTKEY`, clears `KREL`
and leaves `PC` at `A + 2` (the spec's decisions D20, D30, log entry 24). -/
def Obligations.WaitForKeyRewindsOrDelivers : Prop :=
  ∀ (s : State) (a : Word) (x : Nibble), s.pc = a + 2 →
    (s.kRel = false → exec (.ldVxK x) s = .next { s with pc := a }) ∧
    (s.kRel = true → ∃ t, exec (.ldVxK x) s = .next t ∧ t = { s with v := t.v, kRel := false } ∧
      (t.readV x).toNat = s.lastKey.toNat ∧ ∀ r, r ≠ x → t.readV r = s.readV r)

/-- R152, R157 (the source's section 8): with no key released, any number of steps of `FX0A` leave the whole state
as it is (the rewind is the spec's decision D20, log entry 24). -/
def Obligations.WaitForKeyWaitsForEver : Prop :=
  ∀ (s : State) (x : Nibble) (n : Nat), s.inputs = [] → s.hasReset = true → s.pc.toNat ≤ 0x0FFE →
    decode s.fetchWord = .ok (.ldVxK x) → s.kRel = false → Host.Core.run Sys2Proof.core n s = .next s

/-- R153, R154, R155: the timer accesses, and `AUDIO_EN` after `FX18`. (That `AUDIO_EN` is a function of `ST` alone
is R38 with the spec's decision D16, log entry 27.) -/
def Obligations.TimerInstructionsMoveOneByte : Prop :=
  ∀ (s : State) (x : Nibble),
    (∃ t, exec (.ldVxDt x) s = .next t ∧ t = { s with v := t.v } ∧ t.readV x = s.dt ∧
      ∀ r, r ≠ x → t.readV r = s.readV r) ∧
    exec (.ldDtVx x) s = .next { s with dt := s.readV x } ∧
    exec (.ldStVx x) s = .next { s with st := s.readV x } ∧
    (State.audioEn { s with st := s.readV x } = true ↔ s.readV x ≠ 0)

/-- R34, R180: no instruction reads `ST`: two states that differ in it only stay so, or end the same after an
`FX18`. -/
def Obligations.NoInstructionReadsSoundTimer : Prop :=
  ∀ (i : Instr) (s : State) (b : Byte), ∃ t u, exec i s = .next t ∧ exec i { s with st := b } = .next u ∧
    ((∃ x, i = .ldStVx x) → u = t) ∧ ((∀ x, i ≠ .ldStVx x) → u = { t with st := b })

/-- R181, R182 (with the spec's decision D16, log entry 27): the edges of `AUDIO_EN`. Among instructions only `FX18`
makes one, with the level `V[X] > 0`; a Tick makes a fall exactly when it takes `ST` from 1 to 0 and never a rise;
Reset makes a fall exactly when `ST` is not 0. -/
def Obligations.AudioEdges : Prop :=
  (∀ (i : Instr) (s t : State) (b : Bool), exec i s = .next t → toneCall s t = some b →
    ∃ x, i = .ldStVx x ∧ (b = true ↔ s.readV x ≠ 0) ∧ (b = true ↔ s.st = 0)) ∧
  (∀ s : State, toneCall s s.tickEvent ≠ some true ∧ (toneCall s s.tickEvent = some false ↔ s.st = 1)) ∧
  (∀ s : State, toneCall s s.resetEvent ≠ some true ∧ (toneCall s s.resetEvent = some false ↔ s.st ≠ 0))

/-- R178: each of `n` Ticks decrements each timer once, with a floor at 0 (so a timer of value `n` is 0 after `n`
Ticks at the latest and stays 0), and changes nothing else. -/
def Obligations.TickCountsDownWithFloor : Prop :=
  ∀ (s : State) (n : Nat) (rest : List Event), s.inputs = List.replicate n .tick ++ rest → s.hasReset = true →
    ∃ t : State, Host.Core.run Sys2Proof.core n s = .next t ∧
      t = { s with inputs := rest, dt := t.dt, st := t.st } ∧
      t.dt.toNat = s.dt.toNat - n ∧ t.st.toNat = s.st.toNat - n

/-- R179: `TimerAdvance(dt)` makes the Ticks of the whole sixtieths of a second accumulated, in one event, and keeps
the remainder. (The closed form of the loop is log entry 6.) -/
def Obligations.TimerAdvanceTicksWholeSixtieths : Prop :=
  ∀ (s : State) (elapsed : Rat) (rest : List Event), s.inputs = .timerAdvance elapsed :: rest →
    s.hasReset = true → 0 ≤ elapsed → 0 ≤ s.acc →
    ∃ t, ∃ n : Nat, step s = .next t ∧ t = { s with inputs := rest, dt := t.dt, st := t.st, acc := t.acc } ∧
      t.acc = s.acc + elapsed - (n : Rat) / 60 ∧ 0 ≤ t.acc ∧ t.acc < 1 / 60 ∧
      t.dt.toNat = s.dt.toNat - n ∧ t.st.toNat = s.st.toNat - n

/-- R183, R184: what the key events do to the latch, bit by bit, and that they change nothing else. -/
def Obligations.KeyEventsSetTheLatch : Prop :=
  ∀ (s : State) (k : Nibble) (rest : List Event),
    (s.inputs = .keyDown k :: rest → ∃ t, step s = .next t ∧
      t = { s with inputs := rest, keys := t.keys, lastKey := k } ∧
      ∀ j < 16, t.keys.getLsbD j = (decide (j = k.toNat) || s.keys.getLsbD j)) ∧
    (s.inputs = .keyUp k :: rest → ∃ t, step s = .next t ∧
      t = { s with inputs := rest, keys := t.keys, kRel := true } ∧
      ∀ j < 16, t.keys.getLsbD j = (!decide (j = k.toNat) && s.keys.getLsbD j))

end KeypadAndTimers

section ResetAndLoad

open Sys2Proof Sys2Proof.Machine Sys2Proof.Safety

/-- R200: what Reset leaves in memory, registers, stack and timers, whatever the state before. (The rule's
`FONT_BASE` and `FONT_TABLE` are the parameters of `Config`, log entries 1 and 2: only the bound of the one and the
length of the other are said here.) -/
def Obligations.ResetLeavesTheListedState : Prop :=
  ∀ (s : State) (rest : List Event), s.inputs = .reset :: rest → ∃ t, step s = .next t ∧
    (∀ r, t.readV r = 0) ∧ t.i = 0 ∧ t.pc = 0x0200 ∧ t.sp = 0 ∧ (∀ j : Fin 16, t.stack[j] = 0) ∧
    t.dt = 0 ∧ t.st = 0 ∧ t.audioEn = false ∧
    Config.fontBase.val + 80 ≤ 0x200 ∧ Config.fontTable.length = 80 ∧
    (∀ k (h : k < Config.fontTable.length), t.mem.read (Config.fontBase.val + k) = Config.fontTable[k]) ∧
    (∀ a, (∀ k < 80, a ≠ Config.fontBase.val + k) → t.mem.read a = 0) ∧ t.reports = s.reports

/-- What Reset does not touch: the keypad latch, the frame, the tick phase (R202, the spec's decision D25, log entry
20), and the model's own fields but for the event taken from the schedule and the note that a Reset has happened. -/
def Obligations.ResetLeavesTheLatchAndTheFrame : Prop :=
  ∀ (s : State) (rest : List Event), s.inputs = .reset :: rest → ∃ t, step s = .next t ∧
    t.keys = s.keys ∧ t.lastKey = s.lastKey ∧ t.kRel = s.kRel ∧ t.fb = s.fb ∧ t.acc = s.acc ∧
    t.hasReset = true ∧ t.reports = s.reports ∧ t.inputs = rest ∧ t.draws = s.draws

/-- R204, and R203 with the spec's decision D14 (log entries 10, 20): Reset is idempotent, and from every power-on
state it gives the model's `State.reset` but for the tick phase, which stays open, and the model's own fields. -/
def Obligations.ResetIsIdempotentAndStartsTheMachine : Prop :=
  ∀ s : State, s.resetEvent.resetEvent = s.resetEvent ∧
    (poweredOn s → s.resetEvent = { State.reset with
      acc := s.acc, reports := s.reports, inputs := s.inputs, draws := s.draws })

/-- R203 (with the spec's decision D14, log entry 10): before the first Reset, Step, Load, Tick and TimerAdvance are
refused, and the key events and Reset are not. -/
def Obligations.NothingRunsBeforeTheFirstReset : Prop :=
  ∀ (s : State) (e : Event) (rest : List Event), s.hasReset = false →
    (s.inputs = [] → step s = .refused .beforeReset) ∧
    (s.inputs = e :: rest →
      ((e = .step ∨ e = .tick ∨ (∃ img, e = .load img) ∨ ∃ d, e = .timerAdvance d) →
        step s = .refused .beforeReset) ∧
      ((e = .reset ∨ (∃ k, e = .keyDown k) ∨ ∃ k, e = .keyUp k) → ∃ t, step s = .next t))

/-- R207: a Load of 1 to 3584 bytes puts them at 0x200 on and touches nothing but `MEM`; memory outside the image
keeps its values. -/
def Obligations.LoadCopiesTheImage : Prop :=
  ∀ (s : State) (img : List Byte) (rest : List Event), s.inputs = .load img :: rest → s.hasReset = true →
    1 ≤ img.length → img.length ≤ 3584 →
    ∃ t, step s = .next t ∧ t = { s with inputs := rest, mem := t.mem } ∧
      (∀ a, (a < 0x200 ∨ 0x200 + img.length ≤ a) → t.mem.read a = s.mem.read a) ∧
      (s.mem.wf → ∀ k (h : k < img.length), t.mem.read (0x200 + k) = img[k])

/-- R208: an empty image and one of more than 3584 bytes are refused. -/
def Obligations.BadImagesAreRefused : Prop :=
  ∀ (s : State) (img : List Byte) (rest : List Event), s.inputs = .load img :: rest → s.hasReset = true →
    (img.length = 0 ∨ 3584 < img.length) → step s = .refused (.imageSize img.length)

/-- The invariant holds right after reset (the value of the tick phase there is the model's choice, log entry 5). -/
def Obligations.ResetMeetsTheInvariant : Prop := Inv State.reset

/-- Every step, whichever event it delivers, keeps the invariant: memory in its canonical form, the accumulator in
[0, 1/60), and the bounds on `PC` and the stack slots that 10_state.md R25 and R101 give. -/
def Obligations.StepKeepsTheInvariant : Prop :=
  ∀ s t : State, Inv s → step s = .next t → Inv t

/-- 93_implementation_defined.md U12: a strict step is a step that made no report, and it stops exactly on the
report the step would have made. -/
def Obligations.StrictStepIsAStepWithoutReport : Prop :=
  ∀ s t : State, step s = .next t →
    (t.reports = s.reports → strictStep s = .next t) ∧
    (∀ r, t.reports = r :: s.reports → strictStep s = .fault (.reported r))

end ResetAndLoad
end

