-- ==== Sys2Proof/Laws/Encoding.lean ====
section
/-! SUPPORT. The fields of a word built from nibbles, and the bytes of a word (30_encoding.md R72, R73). -/

namespace Sys2Proof

theorem extract_toNat (lo n : Nat) (w : Word) : (w.extractLsb' lo n).toNat = w.toNat / 2 ^ lo % 2 ^ n := by
  simp [Nat.shiftRight_eq_div_pow]

theorem wordXYN_toNat (a b c d : Nibble) :
    (wordXYN a b c d).toNat = a.toNat * 4096 + b.toNat * 256 + c.toNat * 16 + d.toNat := by
  unfold wordXYN
  rw [BitVec.toNat_append, BitVec.toNat_append, BitVec.toNat_append,
    ← Nat.shiftLeft_add_eq_or_of_lt d.isLt, ← Nat.shiftLeft_add_eq_or_of_lt c.isLt,
    ← Nat.shiftLeft_add_eq_or_of_lt b.isLt]
  simp only [Nat.shiftLeft_eq]
  omega

theorem wordXNN_toNat (a b : Nibble) (c : Byte) :
    (wordXNN a b c).toNat = a.toNat * 4096 + b.toNat * 256 + c.toNat := by
  unfold wordXNN
  rw [BitVec.toNat_append, BitVec.toNat_append, ← Nat.shiftLeft_add_eq_or_of_lt c.isLt,
    ← Nat.shiftLeft_add_eq_or_of_lt b.isLt]
  simp only [Nat.shiftLeft_eq]
  omega

theorem wordNNN_toNat (a : Nibble) (c : Addr12) : (wordNNN a c).toNat = a.toNat * 4096 + c.toNat := by
  unfold wordNNN
  rw [BitVec.toNat_append, ← Nat.shiftLeft_add_eq_or_of_lt c.isLt]
  simp only [Nat.shiftLeft_eq]

theorem wordOfBytes_toNat (hi lo : Byte) : (wordOfBytes hi lo).toNat = hi.toNat * 256 + lo.toNat := by
  unfold wordOfBytes
  rw [BitVec.toNat_append, ← Nat.shiftLeft_add_eq_or_of_lt lo.isLt]
  simp only [Nat.shiftLeft_eq]

@[simp] theorem wordOfBytes_high_low (w : Word) : wordOfBytes (highByte w) (lowByte w) = w := by
  apply BitVec.eq_of_toNat_eq
  rw [wordOfBytes_toNat, highByte, lowByte, extract_toNat, extract_toNat]
  omega

section
variable (a b c d : Nibble) (nn : Byte) (nnn : Addr12)

@[simp] theorem fieldOp_wordXYN : fieldOp (wordXYN a b c d) = a := by
  apply BitVec.eq_of_toNat_eq
  rw [fieldOp, extract_toNat, wordXYN_toNat]
  omega
@[simp] theorem fieldX_wordXYN : fieldX (wordXYN a b c d) = b := by
  apply BitVec.eq_of_toNat_eq
  rw [fieldX, extract_toNat, wordXYN_toNat]
  omega
@[simp] theorem fieldY_wordXYN : fieldY (wordXYN a b c d) = c := by
  apply BitVec.eq_of_toNat_eq
  rw [fieldY, extract_toNat, wordXYN_toNat]
  omega
@[simp] theorem fieldN_wordXYN : fieldN (wordXYN a b c d) = d := by
  apply BitVec.eq_of_toNat_eq
  rw [fieldN, extract_toNat, wordXYN_toNat]
  omega
@[simp] theorem fieldOp_wordXNN : fieldOp (wordXNN a b nn) = a := by
  apply BitVec.eq_of_toNat_eq
  rw [fieldOp, extract_toNat, wordXNN_toNat]
  omega
@[simp] theorem fieldX_wordXNN : fieldX (wordXNN a b nn) = b := by
  apply BitVec.eq_of_toNat_eq
  rw [fieldX, extract_toNat, wordXNN_toNat]
  omega
@[simp] theorem fieldNN_wordXNN : fieldNN (wordXNN a b nn) = nn := by
  apply BitVec.eq_of_toNat_eq
  rw [fieldNN, extract_toNat, wordXNN_toNat]
  omega
@[simp] theorem fieldOp_wordNNN : fieldOp (wordNNN a nnn) = a := by
  apply BitVec.eq_of_toNat_eq
  rw [fieldOp, extract_toNat, wordNNN_toNat]
  omega
@[simp] theorem fieldNNN_wordNNN : fieldNNN (wordNNN a nnn) = nnn := by
  apply BitVec.eq_of_toNat_eq
  rw [fieldNNN, extract_toNat, wordNNN_toNat]
  omega
end

/-- A word is the nibbles of its fields, whichever format it is read in. -/
theorem wordXYN_fields (w : Word) : wordXYN (fieldOp w) (fieldX w) (fieldY w) (fieldN w) = w := by
  apply BitVec.eq_of_toNat_eq
  rw [wordXYN_toNat, fieldOp, fieldX, fieldY, fieldN, extract_toNat, extract_toNat, extract_toNat, extract_toNat]
  omega

theorem wordXNN_fields (w : Word) : wordXNN (fieldOp w) (fieldX w) (fieldNN w) = w := by
  apply BitVec.eq_of_toNat_eq
  rw [wordXNN_toNat, fieldOp, fieldX, fieldNN, extract_toNat, extract_toNat, extract_toNat]
  omega

theorem wordNNN_fields (w : Word) : wordNNN (fieldOp w) (fieldNNN w) = w := by
  apply BitVec.eq_of_toNat_eq
  rw [wordNNN_toNat, fieldOp, fieldNNN, extract_toNat, extract_toNat]
  omega

theorem getLsbD_wordXYN (a b c d : Nibble) (i : Nat) : (wordXYN a b c d).getLsbD i =
    if i < 4 then d.getLsbD i else if i < 8 then c.getLsbD (i - 4) else
    if i < 12 then b.getLsbD (i - 8) else a.getLsbD (i - 12) := by
  unfold wordXYN
  rw [BitVec.getLsbD_append, BitVec.getLsbD_append, BitVec.getLsbD_append]
  by_cases h1 : i < 4
  · rw [if_pos h1, if_pos h1]
  by_cases h2 : i < 8
  · rw [if_neg h1, if_pos (by omega), if_neg h1, if_pos h2]
  by_cases h3 : i < 12
  · rw [if_neg h1, if_neg (by omega), if_pos (by omega), if_neg h1, if_neg h2, if_pos h3]
    congr 1
  · rw [if_neg h1, if_neg (by omega), if_neg (by omega), if_neg h1, if_neg h2, if_neg h3]
    congr 1

theorem getLsbD_wordXNN (a b : Nibble) (c : Byte) (i : Nat) : (wordXNN a b c).getLsbD i =
    if i < 8 then c.getLsbD i else if i < 12 then b.getLsbD (i - 8) else a.getLsbD (i - 12) := by
  unfold wordXNN
  rw [BitVec.getLsbD_append, BitVec.getLsbD_append]
  by_cases h1 : i < 8
  · rw [if_pos h1, if_pos h1]
  by_cases h2 : i < 12
  · rw [if_neg h1, if_pos (by omega), if_neg h1, if_pos h2]
  · rw [if_neg h1, if_neg (by omega), if_neg h1, if_neg h2]
    congr 1

theorem getLsbD_wordNNN (a : Nibble) (c : Addr12) (i : Nat) : (wordNNN a c).getLsbD i =
    if i < 12 then c.getLsbD i else a.getLsbD (i - 12) := by
  unfold wordNNN
  rw [BitVec.getLsbD_append]

/-- The masks of the opcode map pick the fixed digits of a format (R75). -/
theorem and_mask_XYF (w : Word) : w &&& 0xF00F#16 = wordXYN (fieldOp w) 0 0 (fieldN w) := by
  apply BitVec.eq_of_getLsbD_eq
  intro i hi
  rw [getLsbD_wordXYN, fieldOp, fieldN]
  have h : i < 16 := hi
  interval_cases i <;> simp

theorem and_mask_XFF (w : Word) : w &&& 0xF0FF#16 = wordXNN (fieldOp w) 0 (fieldNN w) := by
  apply BitVec.eq_of_getLsbD_eq
  intro i hi
  rw [getLsbD_wordXNN, fieldOp, fieldNN]
  have h : i < 16 := hi
  interval_cases i <;> simp

theorem and_mask_OP (w : Word) : w &&& 0xF000#16 = wordNNN (fieldOp w) 0 := by
  apply BitVec.eq_of_getLsbD_eq
  intro i hi
  rw [getLsbD_wordNNN, fieldOp]
  have h : i < 16 := hi
  interval_cases i <;> simp

end Sys2Proof
end

