-- ==== Sys2Proof/Laws/State.lean ====
section
/-! SUPPORT. One lemma per field per update of State: each update replaces its own field and no other. -/

namespace Sys2Proof.Machine

section
variable (s : State) (a : Vector Byte 16)
@[simp] theorem State.setV_v : (s.setV a).v = a := rfl
@[simp] theorem State.setV_i : (s.setV a).i = s.i := rfl
@[simp] theorem State.setV_pc : (s.setV a).pc = s.pc := rfl
@[simp] theorem State.setV_sp : (s.setV a).sp = s.sp := rfl
@[simp] theorem State.setV_stack : (s.setV a).stack = s.stack := rfl
@[simp] theorem State.setV_dt : (s.setV a).dt = s.dt := rfl
@[simp] theorem State.setV_st : (s.setV a).st = s.st := rfl
@[simp] theorem State.setV_mem : (s.setV a).mem = s.mem := rfl
@[simp] theorem State.setV_keys : (s.setV a).keys = s.keys := rfl
@[simp] theorem State.setV_lastKey : (s.setV a).lastKey = s.lastKey := rfl
@[simp] theorem State.setV_kRel : (s.setV a).kRel = s.kRel := rfl
@[simp] theorem State.setV_fb : (s.setV a).fb = s.fb := rfl
@[simp] theorem State.setV_acc : (s.setV a).acc = s.acc := rfl
@[simp] theorem State.setV_hasReset : (s.setV a).hasReset = s.hasReset := rfl
@[simp] theorem State.setV_reports : (s.setV a).reports = s.reports := rfl
@[simp] theorem State.setV_inputs : (s.setV a).inputs = s.inputs := rfl
@[simp] theorem State.setV_draws : (s.setV a).draws = s.draws := rfl
end

section
variable (s : State) (a : Word)
@[simp] theorem State.setI_v : (s.setI a).v = s.v := rfl
@[simp] theorem State.setI_i : (s.setI a).i = a := rfl
@[simp] theorem State.setI_pc : (s.setI a).pc = s.pc := rfl
@[simp] theorem State.setI_sp : (s.setI a).sp = s.sp := rfl
@[simp] theorem State.setI_stack : (s.setI a).stack = s.stack := rfl
@[simp] theorem State.setI_dt : (s.setI a).dt = s.dt := rfl
@[simp] theorem State.setI_st : (s.setI a).st = s.st := rfl
@[simp] theorem State.setI_mem : (s.setI a).mem = s.mem := rfl
@[simp] theorem State.setI_keys : (s.setI a).keys = s.keys := rfl
@[simp] theorem State.setI_lastKey : (s.setI a).lastKey = s.lastKey := rfl
@[simp] theorem State.setI_kRel : (s.setI a).kRel = s.kRel := rfl
@[simp] theorem State.setI_fb : (s.setI a).fb = s.fb := rfl
@[simp] theorem State.setI_acc : (s.setI a).acc = s.acc := rfl
@[simp] theorem State.setI_hasReset : (s.setI a).hasReset = s.hasReset := rfl
@[simp] theorem State.setI_reports : (s.setI a).reports = s.reports := rfl
@[simp] theorem State.setI_inputs : (s.setI a).inputs = s.inputs := rfl
@[simp] theorem State.setI_draws : (s.setI a).draws = s.draws := rfl
end

section
variable (s : State) (a : Word)
@[simp] theorem State.setPc_v : (s.setPc a).v = s.v := rfl
@[simp] theorem State.setPc_i : (s.setPc a).i = s.i := rfl
@[simp] theorem State.setPc_pc : (s.setPc a).pc = a := rfl
@[simp] theorem State.setPc_sp : (s.setPc a).sp = s.sp := rfl
@[simp] theorem State.setPc_stack : (s.setPc a).stack = s.stack := rfl
@[simp] theorem State.setPc_dt : (s.setPc a).dt = s.dt := rfl
@[simp] theorem State.setPc_st : (s.setPc a).st = s.st := rfl
@[simp] theorem State.setPc_mem : (s.setPc a).mem = s.mem := rfl
@[simp] theorem State.setPc_keys : (s.setPc a).keys = s.keys := rfl
@[simp] theorem State.setPc_lastKey : (s.setPc a).lastKey = s.lastKey := rfl
@[simp] theorem State.setPc_kRel : (s.setPc a).kRel = s.kRel := rfl
@[simp] theorem State.setPc_fb : (s.setPc a).fb = s.fb := rfl
@[simp] theorem State.setPc_acc : (s.setPc a).acc = s.acc := rfl
@[simp] theorem State.setPc_hasReset : (s.setPc a).hasReset = s.hasReset := rfl
@[simp] theorem State.setPc_reports : (s.setPc a).reports = s.reports := rfl
@[simp] theorem State.setPc_inputs : (s.setPc a).inputs = s.inputs := rfl
@[simp] theorem State.setPc_draws : (s.setPc a).draws = s.draws := rfl
end

section
variable (s : State) (a : Fin 17)
@[simp] theorem State.setSp_v : (s.setSp a).v = s.v := rfl
@[simp] theorem State.setSp_i : (s.setSp a).i = s.i := rfl
@[simp] theorem State.setSp_pc : (s.setSp a).pc = s.pc := rfl
@[simp] theorem State.setSp_sp : (s.setSp a).sp = a := rfl
@[simp] theorem State.setSp_stack : (s.setSp a).stack = s.stack := rfl
@[simp] theorem State.setSp_dt : (s.setSp a).dt = s.dt := rfl
@[simp] theorem State.setSp_st : (s.setSp a).st = s.st := rfl
@[simp] theorem State.setSp_mem : (s.setSp a).mem = s.mem := rfl
@[simp] theorem State.setSp_keys : (s.setSp a).keys = s.keys := rfl
@[simp] theorem State.setSp_lastKey : (s.setSp a).lastKey = s.lastKey := rfl
@[simp] theorem State.setSp_kRel : (s.setSp a).kRel = s.kRel := rfl
@[simp] theorem State.setSp_fb : (s.setSp a).fb = s.fb := rfl
@[simp] theorem State.setSp_acc : (s.setSp a).acc = s.acc := rfl
@[simp] theorem State.setSp_hasReset : (s.setSp a).hasReset = s.hasReset := rfl
@[simp] theorem State.setSp_reports : (s.setSp a).reports = s.reports := rfl
@[simp] theorem State.setSp_inputs : (s.setSp a).inputs = s.inputs := rfl
@[simp] theorem State.setSp_draws : (s.setSp a).draws = s.draws := rfl
end

section
variable (s : State) (a : Vector Word 16)
@[simp] theorem State.setStack_v : (s.setStack a).v = s.v := rfl
@[simp] theorem State.setStack_i : (s.setStack a).i = s.i := rfl
@[simp] theorem State.setStack_pc : (s.setStack a).pc = s.pc := rfl
@[simp] theorem State.setStack_sp : (s.setStack a).sp = s.sp := rfl
@[simp] theorem State.setStack_stack : (s.setStack a).stack = a := rfl
@[simp] theorem State.setStack_dt : (s.setStack a).dt = s.dt := rfl
@[simp] theorem State.setStack_st : (s.setStack a).st = s.st := rfl
@[simp] theorem State.setStack_mem : (s.setStack a).mem = s.mem := rfl
@[simp] theorem State.setStack_keys : (s.setStack a).keys = s.keys := rfl
@[simp] theorem State.setStack_lastKey : (s.setStack a).lastKey = s.lastKey := rfl
@[simp] theorem State.setStack_kRel : (s.setStack a).kRel = s.kRel := rfl
@[simp] theorem State.setStack_fb : (s.setStack a).fb = s.fb := rfl
@[simp] theorem State.setStack_acc : (s.setStack a).acc = s.acc := rfl
@[simp] theorem State.setStack_hasReset : (s.setStack a).hasReset = s.hasReset := rfl
@[simp] theorem State.setStack_reports : (s.setStack a).reports = s.reports := rfl
@[simp] theorem State.setStack_inputs : (s.setStack a).inputs = s.inputs := rfl
@[simp] theorem State.setStack_draws : (s.setStack a).draws = s.draws := rfl
end

section
variable (s : State) (a : Byte)
@[simp] theorem State.setDt_v : (s.setDt a).v = s.v := rfl
@[simp] theorem State.setDt_i : (s.setDt a).i = s.i := rfl
@[simp] theorem State.setDt_pc : (s.setDt a).pc = s.pc := rfl
@[simp] theorem State.setDt_sp : (s.setDt a).sp = s.sp := rfl
@[simp] theorem State.setDt_stack : (s.setDt a).stack = s.stack := rfl
@[simp] theorem State.setDt_dt : (s.setDt a).dt = a := rfl
@[simp] theorem State.setDt_st : (s.setDt a).st = s.st := rfl
@[simp] theorem State.setDt_mem : (s.setDt a).mem = s.mem := rfl
@[simp] theorem State.setDt_keys : (s.setDt a).keys = s.keys := rfl
@[simp] theorem State.setDt_lastKey : (s.setDt a).lastKey = s.lastKey := rfl
@[simp] theorem State.setDt_kRel : (s.setDt a).kRel = s.kRel := rfl
@[simp] theorem State.setDt_fb : (s.setDt a).fb = s.fb := rfl
@[simp] theorem State.setDt_acc : (s.setDt a).acc = s.acc := rfl
@[simp] theorem State.setDt_hasReset : (s.setDt a).hasReset = s.hasReset := rfl
@[simp] theorem State.setDt_reports : (s.setDt a).reports = s.reports := rfl
@[simp] theorem State.setDt_inputs : (s.setDt a).inputs = s.inputs := rfl
@[simp] theorem State.setDt_draws : (s.setDt a).draws = s.draws := rfl
end

section
variable (s : State) (a : Byte)
@[simp] theorem State.setSt_v : (s.setSt a).v = s.v := rfl
@[simp] theorem State.setSt_i : (s.setSt a).i = s.i := rfl
@[simp] theorem State.setSt_pc : (s.setSt a).pc = s.pc := rfl
@[simp] theorem State.setSt_sp : (s.setSt a).sp = s.sp := rfl
@[simp] theorem State.setSt_stack : (s.setSt a).stack = s.stack := rfl
@[simp] theorem State.setSt_dt : (s.setSt a).dt = s.dt := rfl
@[simp] theorem State.setSt_st : (s.setSt a).st = a := rfl
@[simp] theorem State.setSt_mem : (s.setSt a).mem = s.mem := rfl
@[simp] theorem State.setSt_keys : (s.setSt a).keys = s.keys := rfl
@[simp] theorem State.setSt_lastKey : (s.setSt a).lastKey = s.lastKey := rfl
@[simp] theorem State.setSt_kRel : (s.setSt a).kRel = s.kRel := rfl
@[simp] theorem State.setSt_fb : (s.setSt a).fb = s.fb := rfl
@[simp] theorem State.setSt_acc : (s.setSt a).acc = s.acc := rfl
@[simp] theorem State.setSt_hasReset : (s.setSt a).hasReset = s.hasReset := rfl
@[simp] theorem State.setSt_reports : (s.setSt a).reports = s.reports := rfl
@[simp] theorem State.setSt_inputs : (s.setSt a).inputs = s.inputs := rfl
@[simp] theorem State.setSt_draws : (s.setSt a).draws = s.draws := rfl
end

section
variable (s : State) (a : Memory)
@[simp] theorem State.setMem_v : (s.setMem a).v = s.v := rfl
@[simp] theorem State.setMem_i : (s.setMem a).i = s.i := rfl
@[simp] theorem State.setMem_pc : (s.setMem a).pc = s.pc := rfl
@[simp] theorem State.setMem_sp : (s.setMem a).sp = s.sp := rfl
@[simp] theorem State.setMem_stack : (s.setMem a).stack = s.stack := rfl
@[simp] theorem State.setMem_dt : (s.setMem a).dt = s.dt := rfl
@[simp] theorem State.setMem_st : (s.setMem a).st = s.st := rfl
@[simp] theorem State.setMem_mem : (s.setMem a).mem = a := rfl
@[simp] theorem State.setMem_keys : (s.setMem a).keys = s.keys := rfl
@[simp] theorem State.setMem_lastKey : (s.setMem a).lastKey = s.lastKey := rfl
@[simp] theorem State.setMem_kRel : (s.setMem a).kRel = s.kRel := rfl
@[simp] theorem State.setMem_fb : (s.setMem a).fb = s.fb := rfl
@[simp] theorem State.setMem_acc : (s.setMem a).acc = s.acc := rfl
@[simp] theorem State.setMem_hasReset : (s.setMem a).hasReset = s.hasReset := rfl
@[simp] theorem State.setMem_reports : (s.setMem a).reports = s.reports := rfl
@[simp] theorem State.setMem_inputs : (s.setMem a).inputs = s.inputs := rfl
@[simp] theorem State.setMem_draws : (s.setMem a).draws = s.draws := rfl
end

section
variable (s : State) (a : Word)
@[simp] theorem State.setKeys_v : (s.setKeys a).v = s.v := rfl
@[simp] theorem State.setKeys_i : (s.setKeys a).i = s.i := rfl
@[simp] theorem State.setKeys_pc : (s.setKeys a).pc = s.pc := rfl
@[simp] theorem State.setKeys_sp : (s.setKeys a).sp = s.sp := rfl
@[simp] theorem State.setKeys_stack : (s.setKeys a).stack = s.stack := rfl
@[simp] theorem State.setKeys_dt : (s.setKeys a).dt = s.dt := rfl
@[simp] theorem State.setKeys_st : (s.setKeys a).st = s.st := rfl
@[simp] theorem State.setKeys_mem : (s.setKeys a).mem = s.mem := rfl
@[simp] theorem State.setKeys_keys : (s.setKeys a).keys = a := rfl
@[simp] theorem State.setKeys_lastKey : (s.setKeys a).lastKey = s.lastKey := rfl
@[simp] theorem State.setKeys_kRel : (s.setKeys a).kRel = s.kRel := rfl
@[simp] theorem State.setKeys_fb : (s.setKeys a).fb = s.fb := rfl
@[simp] theorem State.setKeys_acc : (s.setKeys a).acc = s.acc := rfl
@[simp] theorem State.setKeys_hasReset : (s.setKeys a).hasReset = s.hasReset := rfl
@[simp] theorem State.setKeys_reports : (s.setKeys a).reports = s.reports := rfl
@[simp] theorem State.setKeys_inputs : (s.setKeys a).inputs = s.inputs := rfl
@[simp] theorem State.setKeys_draws : (s.setKeys a).draws = s.draws := rfl
end

section
variable (s : State) (a : Nibble)
@[simp] theorem State.setLastKey_v : (s.setLastKey a).v = s.v := rfl
@[simp] theorem State.setLastKey_i : (s.setLastKey a).i = s.i := rfl
@[simp] theorem State.setLastKey_pc : (s.setLastKey a).pc = s.pc := rfl
@[simp] theorem State.setLastKey_sp : (s.setLastKey a).sp = s.sp := rfl
@[simp] theorem State.setLastKey_stack : (s.setLastKey a).stack = s.stack := rfl
@[simp] theorem State.setLastKey_dt : (s.setLastKey a).dt = s.dt := rfl
@[simp] theorem State.setLastKey_st : (s.setLastKey a).st = s.st := rfl
@[simp] theorem State.setLastKey_mem : (s.setLastKey a).mem = s.mem := rfl
@[simp] theorem State.setLastKey_keys : (s.setLastKey a).keys = s.keys := rfl
@[simp] theorem State.setLastKey_lastKey : (s.setLastKey a).lastKey = a := rfl
@[simp] theorem State.setLastKey_kRel : (s.setLastKey a).kRel = s.kRel := rfl
@[simp] theorem State.setLastKey_fb : (s.setLastKey a).fb = s.fb := rfl
@[simp] theorem State.setLastKey_acc : (s.setLastKey a).acc = s.acc := rfl
@[simp] theorem State.setLastKey_hasReset : (s.setLastKey a).hasReset = s.hasReset := rfl
@[simp] theorem State.setLastKey_reports : (s.setLastKey a).reports = s.reports := rfl
@[simp] theorem State.setLastKey_inputs : (s.setLastKey a).inputs = s.inputs := rfl
@[simp] theorem State.setLastKey_draws : (s.setLastKey a).draws = s.draws := rfl
end

section
variable (s : State) (a : Bool)
@[simp] theorem State.setKRel_v : (s.setKRel a).v = s.v := rfl
@[simp] theorem State.setKRel_i : (s.setKRel a).i = s.i := rfl
@[simp] theorem State.setKRel_pc : (s.setKRel a).pc = s.pc := rfl
@[simp] theorem State.setKRel_sp : (s.setKRel a).sp = s.sp := rfl
@[simp] theorem State.setKRel_stack : (s.setKRel a).stack = s.stack := rfl
@[simp] theorem State.setKRel_dt : (s.setKRel a).dt = s.dt := rfl
@[simp] theorem State.setKRel_st : (s.setKRel a).st = s.st := rfl
@[simp] theorem State.setKRel_mem : (s.setKRel a).mem = s.mem := rfl
@[simp] theorem State.setKRel_keys : (s.setKRel a).keys = s.keys := rfl
@[simp] theorem State.setKRel_lastKey : (s.setKRel a).lastKey = s.lastKey := rfl
@[simp] theorem State.setKRel_kRel : (s.setKRel a).kRel = a := rfl
@[simp] theorem State.setKRel_fb : (s.setKRel a).fb = s.fb := rfl
@[simp] theorem State.setKRel_acc : (s.setKRel a).acc = s.acc := rfl
@[simp] theorem State.setKRel_hasReset : (s.setKRel a).hasReset = s.hasReset := rfl
@[simp] theorem State.setKRel_reports : (s.setKRel a).reports = s.reports := rfl
@[simp] theorem State.setKRel_inputs : (s.setKRel a).inputs = s.inputs := rfl
@[simp] theorem State.setKRel_draws : (s.setKRel a).draws = s.draws := rfl
end

section
variable (s : State) (a : Frame)
@[simp] theorem State.setFb_v : (s.setFb a).v = s.v := rfl
@[simp] theorem State.setFb_i : (s.setFb a).i = s.i := rfl
@[simp] theorem State.setFb_pc : (s.setFb a).pc = s.pc := rfl
@[simp] theorem State.setFb_sp : (s.setFb a).sp = s.sp := rfl
@[simp] theorem State.setFb_stack : (s.setFb a).stack = s.stack := rfl
@[simp] theorem State.setFb_dt : (s.setFb a).dt = s.dt := rfl
@[simp] theorem State.setFb_st : (s.setFb a).st = s.st := rfl
@[simp] theorem State.setFb_mem : (s.setFb a).mem = s.mem := rfl
@[simp] theorem State.setFb_keys : (s.setFb a).keys = s.keys := rfl
@[simp] theorem State.setFb_lastKey : (s.setFb a).lastKey = s.lastKey := rfl
@[simp] theorem State.setFb_kRel : (s.setFb a).kRel = s.kRel := rfl
@[simp] theorem State.setFb_fb : (s.setFb a).fb = a := rfl
@[simp] theorem State.setFb_acc : (s.setFb a).acc = s.acc := rfl
@[simp] theorem State.setFb_hasReset : (s.setFb a).hasReset = s.hasReset := rfl
@[simp] theorem State.setFb_reports : (s.setFb a).reports = s.reports := rfl
@[simp] theorem State.setFb_inputs : (s.setFb a).inputs = s.inputs := rfl
@[simp] theorem State.setFb_draws : (s.setFb a).draws = s.draws := rfl
end

section
variable (s : State) (a : Rat)
@[simp] theorem State.setAcc_v : (s.setAcc a).v = s.v := rfl
@[simp] theorem State.setAcc_i : (s.setAcc a).i = s.i := rfl
@[simp] theorem State.setAcc_pc : (s.setAcc a).pc = s.pc := rfl
@[simp] theorem State.setAcc_sp : (s.setAcc a).sp = s.sp := rfl
@[simp] theorem State.setAcc_stack : (s.setAcc a).stack = s.stack := rfl
@[simp] theorem State.setAcc_dt : (s.setAcc a).dt = s.dt := rfl
@[simp] theorem State.setAcc_st : (s.setAcc a).st = s.st := rfl
@[simp] theorem State.setAcc_mem : (s.setAcc a).mem = s.mem := rfl
@[simp] theorem State.setAcc_keys : (s.setAcc a).keys = s.keys := rfl
@[simp] theorem State.setAcc_lastKey : (s.setAcc a).lastKey = s.lastKey := rfl
@[simp] theorem State.setAcc_kRel : (s.setAcc a).kRel = s.kRel := rfl
@[simp] theorem State.setAcc_fb : (s.setAcc a).fb = s.fb := rfl
@[simp] theorem State.setAcc_acc : (s.setAcc a).acc = a := rfl
@[simp] theorem State.setAcc_hasReset : (s.setAcc a).hasReset = s.hasReset := rfl
@[simp] theorem State.setAcc_reports : (s.setAcc a).reports = s.reports := rfl
@[simp] theorem State.setAcc_inputs : (s.setAcc a).inputs = s.inputs := rfl
@[simp] theorem State.setAcc_draws : (s.setAcc a).draws = s.draws := rfl
end

section
variable (s : State) (a : Bool)
@[simp] theorem State.setHasReset_v : (s.setHasReset a).v = s.v := rfl
@[simp] theorem State.setHasReset_i : (s.setHasReset a).i = s.i := rfl
@[simp] theorem State.setHasReset_pc : (s.setHasReset a).pc = s.pc := rfl
@[simp] theorem State.setHasReset_sp : (s.setHasReset a).sp = s.sp := rfl
@[simp] theorem State.setHasReset_stack : (s.setHasReset a).stack = s.stack := rfl
@[simp] theorem State.setHasReset_dt : (s.setHasReset a).dt = s.dt := rfl
@[simp] theorem State.setHasReset_st : (s.setHasReset a).st = s.st := rfl
@[simp] theorem State.setHasReset_mem : (s.setHasReset a).mem = s.mem := rfl
@[simp] theorem State.setHasReset_keys : (s.setHasReset a).keys = s.keys := rfl
@[simp] theorem State.setHasReset_lastKey : (s.setHasReset a).lastKey = s.lastKey := rfl
@[simp] theorem State.setHasReset_kRel : (s.setHasReset a).kRel = s.kRel := rfl
@[simp] theorem State.setHasReset_fb : (s.setHasReset a).fb = s.fb := rfl
@[simp] theorem State.setHasReset_acc : (s.setHasReset a).acc = s.acc := rfl
@[simp] theorem State.setHasReset_hasReset : (s.setHasReset a).hasReset = a := rfl
@[simp] theorem State.setHasReset_reports : (s.setHasReset a).reports = s.reports := rfl
@[simp] theorem State.setHasReset_inputs : (s.setHasReset a).inputs = s.inputs := rfl
@[simp] theorem State.setHasReset_draws : (s.setHasReset a).draws = s.draws := rfl
end

section
variable (s : State) (a : List Report)
@[simp] theorem State.setReports_v : (s.setReports a).v = s.v := rfl
@[simp] theorem State.setReports_i : (s.setReports a).i = s.i := rfl
@[simp] theorem State.setReports_pc : (s.setReports a).pc = s.pc := rfl
@[simp] theorem State.setReports_sp : (s.setReports a).sp = s.sp := rfl
@[simp] theorem State.setReports_stack : (s.setReports a).stack = s.stack := rfl
@[simp] theorem State.setReports_dt : (s.setReports a).dt = s.dt := rfl
@[simp] theorem State.setReports_st : (s.setReports a).st = s.st := rfl
@[simp] theorem State.setReports_mem : (s.setReports a).mem = s.mem := rfl
@[simp] theorem State.setReports_keys : (s.setReports a).keys = s.keys := rfl
@[simp] theorem State.setReports_lastKey : (s.setReports a).lastKey = s.lastKey := rfl
@[simp] theorem State.setReports_kRel : (s.setReports a).kRel = s.kRel := rfl
@[simp] theorem State.setReports_fb : (s.setReports a).fb = s.fb := rfl
@[simp] theorem State.setReports_acc : (s.setReports a).acc = s.acc := rfl
@[simp] theorem State.setReports_hasReset : (s.setReports a).hasReset = s.hasReset := rfl
@[simp] theorem State.setReports_reports : (s.setReports a).reports = a := rfl
@[simp] theorem State.setReports_inputs : (s.setReports a).inputs = s.inputs := rfl
@[simp] theorem State.setReports_draws : (s.setReports a).draws = s.draws := rfl
end

section
variable (s : State) (a : List Event)
@[simp] theorem State.setInputs_v : (s.setInputs a).v = s.v := rfl
@[simp] theorem State.setInputs_i : (s.setInputs a).i = s.i := rfl
@[simp] theorem State.setInputs_pc : (s.setInputs a).pc = s.pc := rfl
@[simp] theorem State.setInputs_sp : (s.setInputs a).sp = s.sp := rfl
@[simp] theorem State.setInputs_stack : (s.setInputs a).stack = s.stack := rfl
@[simp] theorem State.setInputs_dt : (s.setInputs a).dt = s.dt := rfl
@[simp] theorem State.setInputs_st : (s.setInputs a).st = s.st := rfl
@[simp] theorem State.setInputs_mem : (s.setInputs a).mem = s.mem := rfl
@[simp] theorem State.setInputs_keys : (s.setInputs a).keys = s.keys := rfl
@[simp] theorem State.setInputs_lastKey : (s.setInputs a).lastKey = s.lastKey := rfl
@[simp] theorem State.setInputs_kRel : (s.setInputs a).kRel = s.kRel := rfl
@[simp] theorem State.setInputs_fb : (s.setInputs a).fb = s.fb := rfl
@[simp] theorem State.setInputs_acc : (s.setInputs a).acc = s.acc := rfl
@[simp] theorem State.setInputs_hasReset : (s.setInputs a).hasReset = s.hasReset := rfl
@[simp] theorem State.setInputs_reports : (s.setInputs a).reports = s.reports := rfl
@[simp] theorem State.setInputs_inputs : (s.setInputs a).inputs = a := rfl
@[simp] theorem State.setInputs_draws : (s.setInputs a).draws = s.draws := rfl
end

section
variable (s : State) (a : Nat)
@[simp] theorem State.setDraws_v : (s.setDraws a).v = s.v := rfl
@[simp] theorem State.setDraws_i : (s.setDraws a).i = s.i := rfl
@[simp] theorem State.setDraws_pc : (s.setDraws a).pc = s.pc := rfl
@[simp] theorem State.setDraws_sp : (s.setDraws a).sp = s.sp := rfl
@[simp] theorem State.setDraws_stack : (s.setDraws a).stack = s.stack := rfl
@[simp] theorem State.setDraws_dt : (s.setDraws a).dt = s.dt := rfl
@[simp] theorem State.setDraws_st : (s.setDraws a).st = s.st := rfl
@[simp] theorem State.setDraws_mem : (s.setDraws a).mem = s.mem := rfl
@[simp] theorem State.setDraws_keys : (s.setDraws a).keys = s.keys := rfl
@[simp] theorem State.setDraws_lastKey : (s.setDraws a).lastKey = s.lastKey := rfl
@[simp] theorem State.setDraws_kRel : (s.setDraws a).kRel = s.kRel := rfl
@[simp] theorem State.setDraws_fb : (s.setDraws a).fb = s.fb := rfl
@[simp] theorem State.setDraws_acc : (s.setDraws a).acc = s.acc := rfl
@[simp] theorem State.setDraws_hasReset : (s.setDraws a).hasReset = s.hasReset := rfl
@[simp] theorem State.setDraws_reports : (s.setDraws a).reports = s.reports := rfl
@[simp] theorem State.setDraws_inputs : (s.setDraws a).inputs = s.inputs := rfl
@[simp] theorem State.setDraws_draws : (s.setDraws a).draws = a := rfl
end

end Sys2Proof.Machine
end

