-- ==== Sys2Proof/Laws/Ops.lean ====
section
/-! SUPPORT. What each shared operation over registers, memory, stack and reports does, said once. -/

namespace Sys2Proof.Machine

/-! Registers: `writeV` writes one register and no other field. -/

section
variable (s : State) (x : Nibble) (b : Byte)
@[simp] theorem State.writeV_i : (s.writeV x b).i = s.i := rfl
@[simp] theorem State.writeV_pc : (s.writeV x b).pc = s.pc := rfl
@[simp] theorem State.writeV_sp : (s.writeV x b).sp = s.sp := rfl
@[simp] theorem State.writeV_stack : (s.writeV x b).stack = s.stack := rfl
@[simp] theorem State.writeV_dt : (s.writeV x b).dt = s.dt := rfl
@[simp] theorem State.writeV_st : (s.writeV x b).st = s.st := rfl
@[simp] theorem State.writeV_mem : (s.writeV x b).mem = s.mem := rfl
@[simp] theorem State.writeV_keys : (s.writeV x b).keys = s.keys := rfl
@[simp] theorem State.writeV_lastKey : (s.writeV x b).lastKey = s.lastKey := rfl
@[simp] theorem State.writeV_kRel : (s.writeV x b).kRel = s.kRel := rfl
@[simp] theorem State.writeV_fb : (s.writeV x b).fb = s.fb := rfl
@[simp] theorem State.writeV_acc : (s.writeV x b).acc = s.acc := rfl
@[simp] theorem State.writeV_hasReset : (s.writeV x b).hasReset = s.hasReset := rfl
@[simp] theorem State.writeV_reports : (s.writeV x b).reports = s.reports := rfl
@[simp] theorem State.writeV_inputs : (s.writeV x b).inputs = s.inputs := rfl
@[simp] theorem State.writeV_draws : (s.writeV x b).draws = s.draws := rfl
end

section
variable (s : State) (x : Nibble) (b c : Byte)
@[simp] theorem State.writeResultAndFlag_i : (s.writeResultAndFlag x b c).i = s.i := rfl
@[simp] theorem State.writeResultAndFlag_pc : (s.writeResultAndFlag x b c).pc = s.pc := rfl
@[simp] theorem State.writeResultAndFlag_sp : (s.writeResultAndFlag x b c).sp = s.sp := rfl
@[simp] theorem State.writeResultAndFlag_stack : (s.writeResultAndFlag x b c).stack = s.stack := rfl
@[simp] theorem State.writeResultAndFlag_dt : (s.writeResultAndFlag x b c).dt = s.dt := rfl
@[simp] theorem State.writeResultAndFlag_st : (s.writeResultAndFlag x b c).st = s.st := rfl
@[simp] theorem State.writeResultAndFlag_mem : (s.writeResultAndFlag x b c).mem = s.mem := rfl
@[simp] theorem State.writeResultAndFlag_keys : (s.writeResultAndFlag x b c).keys = s.keys := rfl
@[simp] theorem State.writeResultAndFlag_lastKey : (s.writeResultAndFlag x b c).lastKey = s.lastKey := rfl
@[simp] theorem State.writeResultAndFlag_kRel : (s.writeResultAndFlag x b c).kRel = s.kRel := rfl
@[simp] theorem State.writeResultAndFlag_fb : (s.writeResultAndFlag x b c).fb = s.fb := rfl
@[simp] theorem State.writeResultAndFlag_acc : (s.writeResultAndFlag x b c).acc = s.acc := rfl
@[simp] theorem State.writeResultAndFlag_hasReset : (s.writeResultAndFlag x b c).hasReset = s.hasReset := rfl
@[simp] theorem State.writeResultAndFlag_reports : (s.writeResultAndFlag x b c).reports = s.reports := rfl
@[simp] theorem State.writeResultAndFlag_inputs : (s.writeResultAndFlag x b c).inputs = s.inputs := rfl
@[simp] theorem State.writeResultAndFlag_draws : (s.writeResultAndFlag x b c).draws = s.draws := rfl
end

/-! A register read does not see the updates of other fields. -/

section
variable (s : State) (y : Nibble)
@[simp] theorem State.readV_setI (a : Word) : (s.setI a).readV y = s.readV y := rfl
@[simp] theorem State.readV_setPc (a : Word) : (s.setPc a).readV y = s.readV y := rfl
@[simp] theorem State.readV_setSp (a : Fin 17) : (s.setSp a).readV y = s.readV y := rfl
@[simp] theorem State.readV_setStack (a : Vector Word 16) : (s.setStack a).readV y = s.readV y := rfl
@[simp] theorem State.readV_setDt (a : Byte) : (s.setDt a).readV y = s.readV y := rfl
@[simp] theorem State.readV_setSt (a : Byte) : (s.setSt a).readV y = s.readV y := rfl
@[simp] theorem State.readV_setMem (a : Memory) : (s.setMem a).readV y = s.readV y := rfl
@[simp] theorem State.readV_setKeys (a : Word) : (s.setKeys a).readV y = s.readV y := rfl
@[simp] theorem State.readV_setLastKey (a : Nibble) : (s.setLastKey a).readV y = s.readV y := rfl
@[simp] theorem State.readV_setKRel (a : Bool) : (s.setKRel a).readV y = s.readV y := rfl
@[simp] theorem State.readV_setFb (a : Frame) : (s.setFb a).readV y = s.readV y := rfl
@[simp] theorem State.readV_setAcc (a : Rat) : (s.setAcc a).readV y = s.readV y := rfl
@[simp] theorem State.readV_setHasReset (a : Bool) : (s.setHasReset a).readV y = s.readV y := rfl
@[simp] theorem State.readV_setReports (a : List Report) : (s.setReports a).readV y = s.readV y := rfl
@[simp] theorem State.readV_setInputs (a : List Event) : (s.setInputs a).readV y = s.readV y := rfl
@[simp] theorem State.readV_setDraws (a : Nat) : (s.setDraws a).readV y = s.readV y := rfl
end

theorem nibble_toNat_eq {x y : Nibble} : x.toNat = y.toNat ↔ x = y :=
  ⟨BitVec.eq_of_toNat_eq, fun h => by rw [h]⟩

/-- A register read after a register write. -/
@[simp] theorem State.readV_writeV (s : State) (x y : Nibble) (b : Byte) :
    (s.writeV x b).readV y = if x = y then b else s.readV y := by
  simp only [State.readV, State.writeV, State.setV_v, Vector.getElem_set, nibble_toNat_eq]

/-- Result first, flag second: the flag register ends as the flag (42_alu.md R112). -/
@[simp] theorem State.readV_writeResultAndFlag (s : State) (x y : Nibble) (r f : Byte) :
    (s.writeResultAndFlag x r f).readV y = if 0xF = y then f else if x = y then r else s.readV y := by
  simp only [State.writeResultAndFlag, State.readV_writeV]

theorem State.setV_readV (s : State) (v : Vector Byte 16) (y : Nibble) :
    (s.setV v).readV y = v[y.toNat]'(y.isLt) := rfl

theorem blockReg_toNat {k : Nat} (h : k < 16) : (blockReg k).toNat = k := by
  simp [blockReg, Nat.mod_eq_of_lt h]

/-! Memory as a list: reads after writes, and the canonical form. -/

theorem Memory.read_putFront (a : Nat) (b : Byte) (rest : Memory) (a' : Nat)
    (h : a' = a → b = Memory.unlisted a → Memory.read rest a = b) :
    Memory.read (Memory.putFront a b rest) a' = if a' = a then b else Memory.read rest a' := by
  unfold Memory.putFront
  by_cases hb : b = Memory.unlisted a
  · rw [if_pos hb]
    by_cases ha : a' = a
    · rw [if_pos ha, ha, h ha hb]
    · rw [if_neg ha]
  · rw [if_neg hb]
    by_cases ha : a' = a
    · simp [Memory.read, ha]
    · simp [Memory.read, ha, Ne.symm ha]

/-- A write leaves every other address alone (whatever the list). -/
theorem Memory.read_write_ne (m : Memory) {a a' : Nat} (b : Byte) (h : a' ≠ a) :
    (m.write a b).read a' = m.read a' := by
  induction m with
  | nil =>
    rw [Memory.write, Memory.read_putFront _ _ _ _ (fun e => absurd e h), if_neg h]
  | cons c rest ih =>
    obtain ⟨k, v⟩ := c
    simp only [Memory.write]
    split
    · rw [Memory.read_putFront _ _ _ _ (fun e => absurd e h), if_neg h]
    · split
      · rename_i _ hk
        rw [Memory.read_putFront _ _ _ _ (fun e => absurd e h), if_neg h, Memory.read,
          if_neg (by rw [← hk]; exact Ne.symm h)]
      · simp only [Memory.read, ih]

/-- An address below every listed one reads as unlisted. -/
theorem Memory.read_of_lt_all (m : Memory) {a : Nat} (h : ∀ c ∈ m, a < c.1) : m.read a = Memory.unlisted a := by
  induction m with
  | nil => rfl
  | cons c rest ih =>
    obtain ⟨k, v⟩ := c
    have hk : a < k := h (k, v) (by simp)
    rw [Memory.read, if_neg (by omega), ih (fun d hd => h d (by simp [hd]))]

theorem Memory.wf_tail {c : Host.Cell} {rest : Memory} (h : Memory.wf (c :: rest)) : Memory.wf rest :=
  ⟨(List.pairwise_cons.1 h.1).2, fun d hd => h.2 d (by simp [hd])⟩

/-- A read after a write to the same address gives the value written. -/
theorem Memory.read_write_same (m : Memory) (hm : m.wf) (a : Nat) (b : Byte) : (m.write a b).read a = b := by
  induction m with
  | nil => rw [Memory.write, Memory.read_putFront _ _ _ _ (fun _ e => by rw [e]; rfl), if_pos rfl]
  | cons c rest ih =>
    obtain ⟨k, v⟩ := c
    have hlt := (List.pairwise_cons.1 hm.1).1
    simp only [Memory.write]
    split
    · rename_i hk
      rw [Memory.read_putFront _ _ _ _ (fun _ e => ?_), if_pos rfl]
      rw [e]
      refine Memory.read_of_lt_all _ (fun d hd => ?_)
      rcases List.mem_cons.1 hd with rfl | hd
      · exact hk
      · exact lt_trans hk (hlt d hd)
    · split
      · rename_i _ hk
        rw [Memory.read_putFront _ _ _ _ (fun _ e => ?_), if_pos rfl]
        rw [e]
        exact Memory.read_of_lt_all _ (fun d hd => by rw [hk]; exact hlt d hd)
      · rename_i _ hk
        rw [Memory.read, if_neg (fun e => hk e.symm)]
        exact ih (Memory.wf_tail hm)

/-- The read law in one: after a write in canonical form. -/
theorem Memory.read_write (m : Memory) (hm : m.wf) (a a' : Nat) (b : Byte) :
    (m.write a b).read a' = if a' = a then b else m.read a' := by
  by_cases h : a' = a
  · rw [if_pos h, h, Memory.read_write_same m hm]
  · rw [if_neg h, Memory.read_write_ne m b h]

theorem Memory.putFront_wf {a : Nat} {b : Byte} {rest : Memory} (ha : a < Config.memSize) (hr : Memory.wf rest)
    (hlt : ∀ c ∈ rest, a < c.1) : Memory.wf (Memory.putFront a b rest) := by
  unfold Memory.putFront
  split
  · exact hr
  · rename_i hb
    refine ⟨List.pairwise_cons.2 ⟨hlt, hr.1⟩, fun c hc => ?_⟩
    rcases List.mem_cons.1 hc with rfl | hc
    · exact ⟨ha, hb⟩
    · exact hr.2 c hc

theorem Memory.mem_write_key {m : Memory} {a : Nat} {b : Byte} {c : Host.Cell} (h : c ∈ m.write a b) :
    c.1 = a ∨ c ∈ m := by
  have hp : ∀ rest : Memory, c ∈ Memory.putFront a b rest → c.1 = a ∨ c ∈ rest := by
    intro rest hc
    unfold Memory.putFront at hc
    split at hc
    · exact .inr hc
    · rcases List.mem_cons.1 hc with rfl | hc
      · exact .inl rfl
      · exact .inr hc
  induction m with
  | nil => exact hp [] h
  | cons d rest ih =>
    obtain ⟨k, v⟩ := d
    simp only [Memory.write] at h
    split at h
    · exact hp _ h
    · split at h
      · exact (hp _ h).imp id (List.mem_cons_of_mem _)
      · rcases List.mem_cons.1 h with rfl | h
        · exact .inr (by simp)
        · exact (ih h).imp id (List.mem_cons_of_mem _)

/-- A write keeps the canonical form. -/
theorem Memory.write_wf {m : Memory} (hm : m.wf) {a : Nat} (ha : a < Config.memSize) (b : Byte) :
    (m.write a b).wf := by
  induction m with
  | nil => exact Memory.putFront_wf ha hm (by simp)
  | cons c rest ih =>
    obtain ⟨k, v⟩ := c
    have hlt := (List.pairwise_cons.1 hm.1).1
    simp only [Memory.write]
    split
    · rename_i hk
      refine Memory.putFront_wf ha hm (fun d hd => ?_)
      rcases List.mem_cons.1 hd with rfl | hd
      · exact hk
      · exact lt_trans hk (hlt d hd)
    · split
      · rename_i _ hk
        exact Memory.putFront_wf ha (Memory.wf_tail hm) (fun d hd => by rw [hk]; exact hlt d hd)
      · rename_i h1 h2
        have hr := ih (Memory.wf_tail hm)
        refine ⟨List.pairwise_cons.2 ⟨fun d hd => ?_, hr.1⟩, fun d hd => ?_⟩
        · rcases Memory.mem_write_key hd with e | hd
          · show k < d.1
            omega
          · exact hlt d hd
        · rcases List.mem_cons.1 hd with rfl | hd
          · exact hm.2 _ (by simp)
          · exact hr.2 d hd

theorem ea_lt (a : Word) : ea a < Config.memSize := Nat.mod_lt _ (by decide)

/-- The address bus sees `(base + k) mod 4096` whether or not the 16-bit sum wrapped (20_memory.md R57). -/
theorem ea_indexed (base : Word) (k : Nat) : ea (indexed base k) = (base.toNat + k) % 4096 := by
  simp [ea, indexed, Config.memSize]

/-! The block store. -/

theorem Memory.storeFrom_wf {m : Memory} (hm : m.wf) (base : Word) (k : Nat) (bytes : List Byte) :
    (m.storeFrom base k bytes).wf := by
  induction bytes generalizing m k with
  | nil => exact hm
  | cons b rest ih => exact ih (Memory.write_wf hm (ea_lt _) b) (k + 1)

/-- Every address outside the stored bytes reads as before. -/
theorem Memory.read_storeFrom_outside (m : Memory) (base : Word) (k : Nat) (bytes : List Byte) (a : Nat)
    (h : ∀ j < bytes.length, a ≠ ea (indexed base (k + j))) : (m.storeFrom base k bytes).read a = m.read a := by
  induction bytes generalizing m k with
  | nil => rfl
  | cons b rest ih =>
    rw [Memory.storeFrom, ih, Memory.read_write_ne]
    · exact h 0 (by simp)
    · intro j hj
      have := h (j + 1) (by simpa using hj)
      rwa [show k + 1 + j = k + (j + 1) by omega]

/-- Each stored byte reads as stored, for a block no longer than memory. -/
theorem Memory.read_storeFrom_inside {m : Memory} (hm : m.wf) (base : Word) (k : Nat) (bytes : List Byte)
    (hlen : bytes.length ≤ 4096) (j : Nat) (hj : j < bytes.length) :
    (m.storeFrom base k bytes).read (ea (indexed base (k + j))) = bytes[j] := by
  induction bytes generalizing m k j with
  | nil => simp at hj
  | cons b rest ih =>
    rw [Memory.storeFrom]
    have hw := Memory.write_wf hm (ea_lt (indexed base k)) b
    cases j with
    | zero =>
      rw [Memory.read_storeFrom_outside, Nat.add_zero, Memory.read_write_same m hm]
      · rfl
      · intro j hj
        simp only [ea_indexed]
        simp only [List.length_cons] at hlen
        omega
    | succ j =>
      rw [show k + (j + 1) = k + 1 + j by omega]
      exact ih hw (k + 1) (by simp at hlen; omega) j (by simpa using hj)

section
variable (s : State) (base : Word) (bytes : List Byte)
@[simp] theorem State.store_v : (s.store base bytes).v = s.v := rfl
@[simp] theorem State.store_i : (s.store base bytes).i = s.i := rfl
@[simp] theorem State.store_pc : (s.store base bytes).pc = s.pc := rfl
@[simp] theorem State.store_sp : (s.store base bytes).sp = s.sp := rfl
@[simp] theorem State.store_stack : (s.store base bytes).stack = s.stack := rfl
@[simp] theorem State.store_dt : (s.store base bytes).dt = s.dt := rfl
@[simp] theorem State.store_st : (s.store base bytes).st = s.st := rfl
@[simp] theorem State.store_keys : (s.store base bytes).keys = s.keys := rfl
@[simp] theorem State.store_lastKey : (s.store base bytes).lastKey = s.lastKey := rfl
@[simp] theorem State.store_kRel : (s.store base bytes).kRel = s.kRel := rfl
@[simp] theorem State.store_fb : (s.store base bytes).fb = s.fb := rfl
@[simp] theorem State.store_acc : (s.store base bytes).acc = s.acc := rfl
@[simp] theorem State.store_hasReset : (s.store base bytes).hasReset = s.hasReset := rfl
@[simp] theorem State.store_reports : (s.store base bytes).reports = s.reports := rfl
@[simp] theorem State.store_inputs : (s.store base bytes).inputs = s.inputs := rfl
@[simp] theorem State.store_draws : (s.store base bytes).draws = s.draws := rfl
@[simp] theorem State.readV_store (y : Nibble) : (s.store base bytes).readV y = s.readV y := rfl
theorem State.store_mem : (s.store base bytes).mem = s.mem.storeFrom base 0 bytes := rfl
end

/-! The block load. -/

@[simp] theorem State.loadBytes_length (s : State) (base : Word) (n : Nat) : (s.loadBytes base n).length = n := by
  simp [State.loadBytes]

@[simp] theorem State.loadBytes_getElem (s : State) (base : Word) (n k : Nat) (h : k < (s.loadBytes base n).length) :
    (s.loadBytes base n)[k] = s.memRead (indexed base k) := by
  simp [State.loadBytes]

@[simp] theorem State.blockRegs_length (s : State) (n : Nat) : (s.blockRegs n).length = n := by
  simp [State.blockRegs]

@[simp] theorem State.blockRegs_getElem (s : State) (n k : Nat) (h : k < (s.blockRegs n).length) :
    (s.blockRegs n)[k] = s.readV (blockReg k) := by
  simp [State.blockRegs]

/-- What a block load leaves in each register. -/
theorem regsFrom_getElem (v : Vector Byte 16) (k : Nat) (bytes : List Byte) (hlen : k + bytes.length ≤ 16)
    (y : Nat) (hy : y < 16) : (regsFrom v k bytes)[y] =
      if h : k ≤ y ∧ y < k + bytes.length then bytes[y - k]'(by omega) else v[y] := by
  induction bytes generalizing v k with
  | nil =>
    rw [dif_neg (by simp)]
    rfl
  | cons b rest ih =>
    have hk : k < 16 := by simp at hlen; omega
    rw [regsFrom, ih _ _ (by simp at hlen; omega)]
    simp only [blockReg_toNat hk, Vector.getElem_set, List.length_cons]
    by_cases h1 : k + 1 ≤ y ∧ y < k + 1 + rest.length
    · rw [dif_pos h1, dif_pos (by omega)]
      simp only [show y - k = (y - (k + 1)) + 1 by omega, List.getElem_cons_succ]
    · rw [dif_neg h1]
      by_cases h2 : k = y
      · subst h2
        simp
      · rw [if_neg h2, dif_neg (by omega)]

/-- The registers after a block load of at most 16 bytes. -/
theorem State.readV_writeRegs (s : State) (bytes : List Byte) (hlen : bytes.length ≤ 16) (y : Nibble) :
    (s.writeRegs bytes).readV y = if h : y.toNat < bytes.length then bytes[y.toNat] else s.readV y := by
  rw [State.writeRegs, State.setV_readV, regsFrom_getElem _ _ _ (by omega)]
  by_cases h : y.toNat < bytes.length
  · rw [dif_pos (by omega), dif_pos h]
    rfl
  · rw [dif_neg (by omega), dif_neg h]
    rfl

section
variable (s : State) (bytes : List Byte)
@[simp] theorem State.writeRegs_i : (s.writeRegs bytes).i = s.i := rfl
@[simp] theorem State.writeRegs_pc : (s.writeRegs bytes).pc = s.pc := rfl
@[simp] theorem State.writeRegs_sp : (s.writeRegs bytes).sp = s.sp := rfl
@[simp] theorem State.writeRegs_stack : (s.writeRegs bytes).stack = s.stack := rfl
@[simp] theorem State.writeRegs_dt : (s.writeRegs bytes).dt = s.dt := rfl
@[simp] theorem State.writeRegs_st : (s.writeRegs bytes).st = s.st := rfl
@[simp] theorem State.writeRegs_mem : (s.writeRegs bytes).mem = s.mem := rfl
@[simp] theorem State.writeRegs_keys : (s.writeRegs bytes).keys = s.keys := rfl
@[simp] theorem State.writeRegs_lastKey : (s.writeRegs bytes).lastKey = s.lastKey := rfl
@[simp] theorem State.writeRegs_kRel : (s.writeRegs bytes).kRel = s.kRel := rfl
@[simp] theorem State.writeRegs_fb : (s.writeRegs bytes).fb = s.fb := rfl
@[simp] theorem State.writeRegs_acc : (s.writeRegs bytes).acc = s.acc := rfl
@[simp] theorem State.writeRegs_hasReset : (s.writeRegs bytes).hasReset = s.hasReset := rfl
@[simp] theorem State.writeRegs_reports : (s.writeRegs bytes).reports = s.reports := rfl
@[simp] theorem State.writeRegs_inputs : (s.writeRegs bytes).inputs = s.inputs := rfl
@[simp] theorem State.writeRegs_draws : (s.writeRegs bytes).draws = s.draws := rfl
end

/-! Skips and reports. -/

section
variable (s : State) (c : Bool)
@[simp] theorem State.skipIf_v : (s.skipIf c).v = s.v := by cases c <;> rfl
@[simp] theorem State.skipIf_i : (s.skipIf c).i = s.i := by cases c <;> rfl
@[simp] theorem State.skipIf_sp : (s.skipIf c).sp = s.sp := by cases c <;> rfl
@[simp] theorem State.skipIf_stack : (s.skipIf c).stack = s.stack := by cases c <;> rfl
@[simp] theorem State.skipIf_dt : (s.skipIf c).dt = s.dt := by cases c <;> rfl
@[simp] theorem State.skipIf_st : (s.skipIf c).st = s.st := by cases c <;> rfl
@[simp] theorem State.skipIf_mem : (s.skipIf c).mem = s.mem := by cases c <;> rfl
@[simp] theorem State.skipIf_keys : (s.skipIf c).keys = s.keys := by cases c <;> rfl
@[simp] theorem State.skipIf_lastKey : (s.skipIf c).lastKey = s.lastKey := by cases c <;> rfl
@[simp] theorem State.skipIf_kRel : (s.skipIf c).kRel = s.kRel := by cases c <;> rfl
@[simp] theorem State.skipIf_fb : (s.skipIf c).fb = s.fb := by cases c <;> rfl
@[simp] theorem State.skipIf_acc : (s.skipIf c).acc = s.acc := by cases c <;> rfl
@[simp] theorem State.skipIf_hasReset : (s.skipIf c).hasReset = s.hasReset := by cases c <;> rfl
@[simp] theorem State.skipIf_reports : (s.skipIf c).reports = s.reports := by cases c <;> rfl
@[simp] theorem State.skipIf_inputs : (s.skipIf c).inputs = s.inputs := by cases c <;> rfl
@[simp] theorem State.skipIf_draws : (s.skipIf c).draws = s.draws := by cases c <;> rfl
@[simp] theorem State.readV_skipIf (y : Nibble) : (s.skipIf c).readV y = s.readV y := by cases c <;> rfl
@[simp] theorem State.skipIf_pc : (s.skipIf c).pc = if c then s.pc + 2 else s.pc := by cases c <;> rfl
/-- A skip in one equation. -/
theorem State.skipIf_eq : s.skipIf c = s.setPc (if c then s.pc + 2 else s.pc) := by cases c <;> rfl
end

section
variable (s : State) (r : Report)
@[simp] theorem State.emit_v : (s.emit r).v = s.v := rfl
@[simp] theorem State.emit_i : (s.emit r).i = s.i := rfl
@[simp] theorem State.emit_pc : (s.emit r).pc = s.pc := rfl
@[simp] theorem State.emit_sp : (s.emit r).sp = s.sp := rfl
@[simp] theorem State.emit_stack : (s.emit r).stack = s.stack := rfl
@[simp] theorem State.emit_dt : (s.emit r).dt = s.dt := rfl
@[simp] theorem State.emit_st : (s.emit r).st = s.st := rfl
@[simp] theorem State.emit_mem : (s.emit r).mem = s.mem := rfl
@[simp] theorem State.emit_keys : (s.emit r).keys = s.keys := rfl
@[simp] theorem State.emit_lastKey : (s.emit r).lastKey = s.lastKey := rfl
@[simp] theorem State.emit_kRel : (s.emit r).kRel = s.kRel := rfl
@[simp] theorem State.emit_fb : (s.emit r).fb = s.fb := rfl
@[simp] theorem State.emit_acc : (s.emit r).acc = s.acc := rfl
@[simp] theorem State.emit_hasReset : (s.emit r).hasReset = s.hasReset := rfl
@[simp] theorem State.emit_inputs : (s.emit r).inputs = s.inputs := rfl
@[simp] theorem State.emit_draws : (s.emit r).draws = s.draws := rfl
end

@[simp] theorem State.emit_reports (s : State) (r : Report) : (s.emit r).reports = r :: s.reports := rfl

section
variable (s : State)
@[simp] theorem State.advance_v : s.advance.v = s.v := rfl
@[simp] theorem State.advance_i : s.advance.i = s.i := rfl
@[simp] theorem State.advance_sp : s.advance.sp = s.sp := rfl
@[simp] theorem State.advance_stack : s.advance.stack = s.stack := rfl
@[simp] theorem State.advance_dt : s.advance.dt = s.dt := rfl
@[simp] theorem State.advance_st : s.advance.st = s.st := rfl
@[simp] theorem State.advance_mem : s.advance.mem = s.mem := rfl
@[simp] theorem State.advance_keys : s.advance.keys = s.keys := rfl
@[simp] theorem State.advance_lastKey : s.advance.lastKey = s.lastKey := rfl
@[simp] theorem State.advance_kRel : s.advance.kRel = s.kRel := rfl
@[simp] theorem State.advance_fb : s.advance.fb = s.fb := rfl
@[simp] theorem State.advance_acc : s.advance.acc = s.acc := rfl
@[simp] theorem State.advance_hasReset : s.advance.hasReset = s.hasReset := rfl
@[simp] theorem State.advance_reports : s.advance.reports = s.reports := rfl
@[simp] theorem State.advance_inputs : s.advance.inputs = s.inputs := rfl
@[simp] theorem State.advance_draws : s.advance.draws = s.draws := rfl
end

@[simp] theorem State.advance_pc (s : State) : s.advance.pc = s.pc + 2 := rfl

/-! The return-address stack: what a push and a pop can do. -/

theorem State.push_some (s : State) (a : Word) (h : s.sp.val < 16) :
    s.push a = some ((s.setStack (s.stack.set s.sp.val a h)).setSp ⟨s.sp.val + 1, by omega⟩) := by
  rw [State.push, dif_pos h]

theorem State.push_none (s : State) (a : Word) (h : s.sp.val = 16) : s.push a = none := by
  rw [State.push, dif_neg (by omega)]

theorem State.pop_some (s : State) (h : 0 < s.sp.val) :
    s.pop = some (s.stack[s.sp.val - 1]'(by have := s.sp.isLt; omega),
      s.setSp ⟨s.sp.val - 1, by have := s.sp.isLt; omega⟩) := by
  rw [State.pop, dif_pos h]

theorem State.pop_none (s : State) (h : s.sp.val = 0) : s.pop = none := by
  rw [State.pop, dif_neg (by omega)]

/-- A pop right after a push gives the pushed address and the slot count back. -/
theorem State.pop_push (s t : State) (a : Word) (h : s.push a = some t) :
    t.pop = some (a, t.setSp s.sp) := by
  unfold State.push at h
  split at h
  · rename_i hs
    cases h
    rw [State.pop_some _ (by simp)]
    simp
  · cases h

end Sys2Proof.Machine
end

