-- ==== Sys2Proof/Laws/Sink.lean ====
section
/-! SUPPORT. What the video sink's operations do to each pixel, and when they collide (44_display.md R141, R142,
R146, R147). -/

namespace Sys2Proof.Machine

open Sys2Proof.Safety

/-- The position lies in the frame. -/
abbrev inFrame (x y : Nat) : Prop := y < 32 ∧ x < 64

theorem Frame.get_outside (fb : Frame) {x y : Nat} (h : ¬ inFrame x y) : Frame.get fb x y = false := by
  rw [Frame.get, dif_neg h]

/-- Two frames with the same pixels are the same. -/
theorem Frame.ext_get {f g : Frame} (h : ∀ x y, Frame.get f x y = Frame.get g x y) : f = g := by
  apply Vector.ext
  intro y hy
  apply Vector.ext
  intro x hx
  have := h x y
  rwa [Frame.get, Frame.get, dif_pos ⟨hy, hx⟩, dif_pos ⟨hy, hx⟩] at this

theorem Frame.get_set (fb : Frame) (x y : Nat) (b : Bool) (x' y' : Nat) (h : inFrame x y) :
    Frame.get (Frame.set fb x y b) x' y' = if x' = x ∧ y' = y then b else Frame.get fb x' y' := by
  rw [Frame.set, dif_pos h, Frame.get, Frame.get]
  by_cases h' : inFrame x' y'
  · rw [dif_pos h', dif_pos h']
    simp only [Vector.getElem_set]
    by_cases hy : y = y'
    · subst hy
      by_cases hx : x = x'
      · simp [hx]
      · simp [hx, Ne.symm hx]
    · simp [hy, Ne.symm hy]
  · rw [dif_neg h', dif_neg h', if_neg]
    rintro ⟨rfl, rfl⟩
    exact h' h

/-- `clear_frame()` leaves no pixel lit. -/
@[simp] theorem get_clearFrame (x y : Nat) : Frame.get clearFrame x y = false := by
  rw [Frame.get]
  split
  · simp [clearFrame]
  · rfl

theorem get_drawPixel (p : Frame × Bool) (x y : Nat) (bit : Bool) (x' y' : Nat) :
    Frame.get (drawPixel p x y bit).1 x' y' =
      (Frame.get p.1 x' y' ^^ (bit && decide (x' = x ∧ y' = y ∧ inFrame x y))) := by
  unfold drawPixel
  by_cases hb : bit = true ∧ inFrame x y
  · obtain ⟨rfl, h⟩ := hb
    rw [if_pos (by simp [h.1, h.2])]
    simp only [Frame.get_set _ _ _ _ _ _ h]
    by_cases he : x' = x ∧ y' = y
    · obtain ⟨rfl, rfl⟩ := he
      simp [h.1, h.2]
    · rw [if_neg he]
      have : ¬ (x' = x ∧ y' = y ∧ inFrame x y) := fun k => he ⟨k.1, k.2.1⟩
      simp [this]
  · rw [if_neg (by simpa [Bool.and_eq_true, and_assoc] using hb)]
    cases bit
    · simp
    · have : ¬ (x' = x ∧ y' = y ∧ inFrame x y) := fun k => hb ⟨rfl, k.2.2⟩
      simp [this]

theorem drawPixel_collided (p : Frame × Bool) (x y : Nat) (bit : Bool) :
    (drawPixel p x y bit).2 = (p.2 || (bit && Frame.get p.1 x y)) := by
  unfold drawPixel
  by_cases h : inFrame x y
  · cases bit <;> simp [h.1, h.2]
  · rw [Frame.get_outside _ h, if_neg]
    · simp
    · intro k
      simp only [Bool.and_eq_true, decide_eq_true_eq] at k
      exact h ⟨k.1.2, k.2⟩

/-- The first `n` columns of a row. -/
def drawCols (p : Frame × Bool) (x0 y : Nat) (row : Byte) (n : Nat) : Frame × Bool :=
  (List.range n).foldl (fun q c => drawPixel q (x0 + c) y (row.getLsbD (7 - c))) p

theorem drawCols_succ (p : Frame × Bool) (x0 y : Nat) (row : Byte) (n : Nat) :
    drawCols p x0 y row (n + 1) = drawPixel (drawCols p x0 y row n) (x0 + n) y (row.getLsbD (7 - n)) := by
  simp [drawCols, List.range_succ]

theorem get_drawCols (p : Frame × Bool) (x0 y : Nat) (row : Byte) (n : Nat) (x' y' : Nat) :
    Frame.get (drawCols p x0 y row n).1 x' y' = (Frame.get p.1 x' y' ^^
      (decide (x0 ≤ x' ∧ x' < x0 + n ∧ y' = y ∧ inFrame x' y') && row.getLsbD (7 - (x' - x0)))) := by
  induction n with
  | zero =>
    have : ¬ (x0 ≤ x' ∧ x' < x0 + 0 ∧ y' = y ∧ inFrame x' y') := by omega
    rw [decide_eq_false this]
    simp [drawCols]
  | succ n ih =>
    rw [drawCols_succ, get_drawPixel, ih]
    by_cases hx : x' = x0 + n
    · subst hx
      have h1 : ¬ (x0 ≤ x0 + n ∧ x0 + n < x0 + n ∧ y' = y ∧ inFrame (x0 + n) y') := by omega
      rw [decide_eq_false h1, Bool.false_and, Bool.xor_false, Nat.add_sub_cancel_left, Bool.and_comm]
      congr 2
      apply decide_eq_decide.2
      constructor
      · rintro ⟨-, rfl, h⟩
        exact ⟨by omega, by omega, rfl, h⟩
      · rintro ⟨-, -, rfl, h⟩
        exact ⟨rfl, rfl, h⟩
    · have h1 : ¬ (x' = x0 + n ∧ y' = y ∧ inFrame (x0 + n) y) := fun k => hx k.1
      rw [decide_eq_false h1, Bool.and_false, Bool.xor_false]
      congr 2
      apply decide_eq_decide.2
      constructor
      · rintro ⟨a, b, c⟩
        exact ⟨a, by omega, c⟩
      · rintro ⟨a, b, c⟩
        exact ⟨a, by omega, c⟩

theorem drawCols_collided (p : Frame × Bool) (x0 y : Nat) (row : Byte) (n : Nat) :
    (drawCols p x0 y row n).2 = true ↔
      p.2 = true ∨ ∃ c < n, row.getLsbD (7 - c) = true ∧ Frame.get p.1 (x0 + c) y = true := by
  induction n with
  | zero => simp [drawCols]
  | succ n ih =>
    rw [drawCols_succ, drawPixel_collided, Bool.or_eq_true, ih, Bool.and_eq_true, get_drawCols]
    have h1 : ¬ (x0 ≤ x0 + n ∧ x0 + n < x0 + n ∧ y = y ∧ inFrame (x0 + n) y) := by omega
    rw [decide_eq_false h1, Bool.false_and, Bool.xor_false]
    constructor
    · rintro ((h | ⟨c, hc, h⟩) | h)
      · exact .inl h
      · exact .inr ⟨c, by omega, h⟩
      · exact .inr ⟨n, by omega, h⟩
    · rintro (h | ⟨c, hc, h⟩)
      · exact .inl (.inl h)
      · by_cases e : c = n
        · subst e
          exact .inr h
        · exact .inl (.inr ⟨c, by omega, h⟩)

/-- One row turns over the pixels under its 1 bits and no other. -/
theorem get_drawRow (p : Frame × Bool) (x0 y : Nat) (row : Byte) (x' y' : Nat) :
    Frame.get (drawRow p x0 y row).1 x' y' = (Frame.get p.1 x' y' ^^
      (decide (x0 ≤ x' ∧ y' = y ∧ inFrame x' y') && rowBit row (x' - x0))) := by
  have h := get_drawCols p x0 y row 8 x' y'
  rw [show drawRow p x0 y row = drawCols p x0 y row 8 from rfl, h, rowBit]
  congr 1
  rw [← Bool.and_assoc]
  congr 1
  rw [← Bool.decide_and]
  apply decide_eq_decide.2
  constructor
  · rintro ⟨a, b, c⟩
    exact ⟨⟨a, c⟩, by omega⟩
  · rintro ⟨⟨a, c⟩, b⟩
    exact ⟨a, by omega, c⟩

theorem drawRow_collided (p : Frame × Bool) (x0 y : Nat) (row : Byte) :
    (drawRow p x0 y row).2 = true ↔
      p.2 = true ∨ ∃ c, rowBit row c = true ∧ Frame.get p.1 (x0 + c) y = true := by
  rw [show drawRow p x0 y row = drawCols p x0 y row 8 from rfl, drawCols_collided]
  simp only [rowBit, Bool.and_eq_true, decide_eq_true_eq, and_assoc]

@[simp] theorem rowBit_zero (c : Nat) : rowBit 0#8 c = false := by simp [rowBit]

theorem spriteBit_cons (x0 y0 : Nat) (row : Byte) (rest : List Byte) (x y : Nat) :
    spriteBit x0 y0 (row :: rest) x y =
      if y = y0 then decide (x0 ≤ x) && rowBit row (x - x0) else spriteBit x0 (y0 + 1) rest x y := by
  unfold spriteBit
  by_cases h : y = y0
  · subst h
    simp
  · rw [if_neg h]
    by_cases h2 : y0 ≤ y
    · rw [show y - y0 = (y - (y0 + 1)) + 1 by omega, List.getD_cons_succ]
      congr 1
      apply decide_eq_decide.2
      omega
    · have : ¬ (x0 ≤ x ∧ y0 ≤ y) := fun k => h2 k.2
      have h3 : ¬ (x0 ≤ x ∧ y0 + 1 ≤ y) := by omega
      rw [decide_eq_false this, decide_eq_false h3, Bool.false_and, Bool.false_and]

/-- Every pixel after drawing: exclusive OR with the sprite's bit, inside the frame. -/
theorem get_drawRows (p : Frame × Bool) (x0 y0 : Nat) (rows : List Byte) (x y : Nat) :
    Frame.get (drawRows p x0 y0 rows).1 x y =
      (Frame.get p.1 x y ^^ (decide (inFrame x y) && spriteBit x0 y0 rows x y)) := by
  induction rows generalizing p y0 with
  | nil =>
    have : spriteBit x0 y0 [] x y = false := by simp [spriteBit]
    rw [this, Bool.and_false, Bool.xor_false]
    rfl
  | cons row rest ih =>
    rw [drawRows, ih, get_drawRow, Bool.xor_assoc, spriteBit_cons]
    congr 1
    by_cases h : y = y0
    · subst h
      have h1 : spriteBit x0 (y + 1) rest x y = false := by
        have : ¬ (x0 ≤ x ∧ y + 1 ≤ y) := by omega
        rw [spriteBit, decide_eq_false this, Bool.false_and]
      rw [h1, Bool.and_false, Bool.xor_false, if_pos rfl, ← Bool.and_assoc, ← Bool.decide_and]
      congr 1
      apply decide_eq_decide.2
      constructor
      · rintro ⟨a, -, b⟩
        exact ⟨b, a⟩
      · rintro ⟨b, a⟩
        exact ⟨a, rfl, b⟩
    · have h1 : ¬ (x0 ≤ x ∧ y = y0 ∧ inFrame x y) := fun k => h k.2.1
      rw [if_neg h, decide_eq_false h1, Bool.false_and, Bool.false_xor]

/-- Drawing collides exactly when some 1 bit of the sprite falls on a pixel that was lit before. -/
theorem drawRows_collided (p : Frame × Bool) (x0 y0 : Nat) (rows : List Byte) :
    (drawRows p x0 y0 rows).2 = true ↔
      p.2 = true ∨ ∃ x y, spriteBit x0 y0 rows x y = true ∧ Frame.get p.1 x y = true := by
  induction rows generalizing p y0 with
  | nil => simp [drawRows, spriteBit]
  | cons row rest ih =>
    rw [drawRows, ih, drawRow_collided]
    constructor
    · rintro ((h | ⟨c, hc, h⟩) | ⟨x, y, hb, h⟩)
      · exact .inl h
      · refine .inr ⟨x0 + c, y0, ?_, h⟩
        rw [spriteBit_cons, if_pos rfl, decide_eq_true (by omega), Nat.add_sub_cancel_left, hc]
        rfl
      · have hy : y0 + 1 ≤ y := by
          simp only [spriteBit, Bool.and_eq_true, decide_eq_true_eq] at hb
          exact hb.1.2
        refine .inr ⟨x, y, ?_, ?_⟩
        · rw [spriteBit_cons, if_neg (by omega), hb]
        · have h1 : ¬ (x0 ≤ x ∧ y = y0 ∧ inFrame x y) := by omega
          rwa [get_drawRow, decide_eq_false h1, Bool.false_and, Bool.xor_false] at h
    · rintro (h | ⟨x, y, hb, h⟩)
      · exact .inl (.inl h)
      · rw [spriteBit_cons] at hb
        split at hb
        · rename_i hy
          simp only [Bool.and_eq_true, decide_eq_true_eq] at hb
          refine .inl (.inr ⟨x - x0, hb.2, ?_⟩)
          rw [show x0 + (x - x0) = x by omega, ← hy]
          exact h
        · rename_i hy
          refine .inr ⟨x, y, hb, ?_⟩
          have h1 : ¬ (x0 ≤ x ∧ y = y0 ∧ inFrame x y) := fun k => hy k.2.1
          rwa [get_drawRow, decide_eq_false h1, Bool.false_and, Bool.xor_false]

/-- Every pixel after `draw_sprite`. -/
theorem get_drawSprite (fb : Frame) (x0 y0 : Nat) (rows : List Byte) (x y : Nat) :
    Frame.get (drawSprite fb x0 y0 rows).1 x y =
      (Frame.get fb x y ^^ (decide (inFrame x y) && spriteBit x0 y0 rows x y)) :=
  get_drawRows (fb, false) x0 y0 rows x y

/-- When `draw_sprite` answers `collided`. -/
theorem drawSprite_collided (fb : Frame) (x0 y0 : Nat) (rows : List Byte) :
    (drawSprite fb x0 y0 rows).2 = true ↔
      ∃ x y, spriteBit x0 y0 rows x y = true ∧ Frame.get fb x y = true := by
  rw [drawSprite, drawRows_collided]
  simp

end Sys2Proof.Machine
end

