-- ==== Sys2Proof/Laws/Exec.lean ====
section
/-! SUPPORT. Equations of the meanings that branch, of the cycle, of the events and of the step. -/

namespace Sys2Proof.Machine

/-! The meanings that branch. -/

theorem execRet_pop (s : State) (h : 0 < s.sp.val) : execRet s =
    .next ((s.setSp ⟨s.sp.val - 1, by have := s.sp.isLt; omega⟩).setPc
      (s.stack[s.sp.val - 1]'(by have := s.sp.isLt; omega))) := by
  rw [execRet, State.pop_some s h]

theorem execRet_underflow (s : State) (h : s.sp.val = 0) :
    execRet s = .next (s.emit (.stackUnderflow 0x00EE (s.pc - 2))) := by
  rw [execRet, State.pop_none s h]
  rfl

theorem execCallNnn_push (nnn : Addr12) (s : State) (h : s.sp.val < 16) : execCallNnn nnn s =
    .next (((s.setStack (s.stack.set s.sp.val s.pc h)).setSp ⟨s.sp.val + 1, by omega⟩).setPc (zextAddr nnn)) := by
  rw [execCallNnn, State.push_some s _ h]

theorem execCallNnn_overflow (nnn : Addr12) (s : State) (h : s.sp.val = 16) :
    execCallNnn nnn s = .next (s.emit (.stackOverflow (wordNNN 0x2 nnn) (s.pc - 2))) := by
  rw [execCallNnn, State.push_none s _ h]
  rfl

theorem execLdVxK_wait (x : Nibble) (s : State) (h : s.kRel = false) :
    execLdVxK x s = .next (s.setPc (s.pc - 2)) := by
  rw [execLdVxK, if_neg (by simp [h])]

theorem execLdVxK_deliver (x : Nibble) (s : State) (h : s.kRel = true) :
    execLdVxK x s = .next ((s.writeV x (zextKey s.lastKey)).setKRel false) := by
  rw [execLdVxK, if_pos h]

/-! The cycle. -/

theorem cycle_outOfRange (s : State) (h : 0x0FFE < s.pc.toNat) :
    cycle s = .next (s.emit (.pcOutOfRange s.pc)) := by
  rw [cycle, if_neg]
  simpa [State.pcInRange] using h

theorem cycle_inRange (s : State) (h : s.pc.toNat ≤ 0x0FFE) :
    cycle s = dispatch s.fetchWord s.pc s.advance := by
  rw [cycle, if_pos (by simpa [State.pcInRange] using h)]

theorem dispatch_ok {ir : Word} {i : Instr} (h : decode ir = .ok i) (a : Word) (s : State) :
    dispatch ir a s = exec i s := by
  rw [dispatch, h]

theorem dispatch_error {ir : Word} {e : DecodeError} (h : decode ir = .error e) (a : Word) (s : State) :
    dispatch ir a s = .next (s.emit (.invalidOpcode ir a)) := by
  rw [dispatch, h]

/-- What a cycle does, said once: it runs the one handler, reports an invalid word, or reports `PC`. -/
theorem cycle_cases (s : State) :
    (s.pc.toNat ≤ 0x0FFE ∧ ∃ i, decode s.fetchWord = .ok i ∧ cycle s = exec i s.advance) ∨
    (s.pc.toNat ≤ 0x0FFE ∧ ∃ e, decode s.fetchWord = .error e ∧
      cycle s = .next (s.advance.emit (.invalidOpcode s.fetchWord s.pc))) ∨
    (0x0FFE < s.pc.toNat ∧ cycle s = .next (s.emit (.pcOutOfRange s.pc))) := by
  by_cases h : s.pc.toNat ≤ 0x0FFE
  · cases hd : decode s.fetchWord with
    | ok i => exact .inl ⟨h, i, rfl, by rw [cycle_inRange s h, dispatch_ok hd]⟩
    | error e => exact .inr (.inl ⟨h, e, rfl, by rw [cycle_inRange s h, dispatch_error hd]⟩)
  · exact .inr (.inr ⟨by omega, cycle_outOfRange s (by omega)⟩)

/-! Events and the step. -/

theorem afterReset_true {s : State} (h : s.hasReset = true) (o : Host.Outcome State Fault Refusal) :
    s.afterReset o = o := by
  rw [State.afterReset, if_pos h]

theorem afterReset_false {s : State} (h : s.hasReset = false) (o : Host.Outcome State Fault Refusal) :
    s.afterReset o = .refused .beforeReset := by
  rw [State.afterReset, if_neg (by simp [h])]

/-- Which images the host may send (70_reset_and_hazards.md R207, R208). -/
theorem wellFormed_load (img : List Byte) :
    (Event.load img).wellFormed = true ↔ 1 ≤ img.length ∧ img.length ≤ 3584 := by
  show (decide (1 ≤ img.length) && decide (img.length ≤ 3584)) = true ↔ _
  rw [Bool.and_eq_true, decide_eq_true_eq, decide_eq_true_eq]

/-- Which elapsed times the host may send (60_exceptions.md R179). -/
theorem wellFormed_timerAdvance (d : Rat) : (Event.timerAdvance d).wellFormed = true ↔ 0 ≤ d := by
  show decide (0 ≤ d) = true ↔ _
  rw [decide_eq_true_eq]

theorem loadEvent_ok (s : State) {img : List Byte} (h : (Event.load img).wellFormed = true) :
    s.loadEvent img = .next (s.loadImage img) := by
  rw [State.loadEvent, if_pos h]

theorem loadEvent_bad (s : State) {img : List Byte} (h : (Event.load img).wellFormed = false) :
    s.loadEvent img = .refused (.imageSize img.length) := by
  rw [State.loadEvent, if_neg (by simp [h])]

theorem timerEvent_ok (s : State) {d : Rat} (h : (Event.timerAdvance d).wellFormed = true) :
    s.timerEvent d = .next (s.advanceTime d) := by
  rw [State.timerEvent, if_pos h]

theorem timerEvent_bad (s : State) {d : Rat} (h : (Event.timerAdvance d).wellFormed = false) :
    s.timerEvent d = .refused .negativeTime := by
  rw [State.timerEvent, if_neg (by simp [h])]

theorem step_nil (s : State) (h : s.inputs = []) (hr : s.hasReset = true) : step s = cycle s := by
  rw [step, h]
  exact afterReset_true hr _

theorem step_cons (s : State) (e : Event) (rest : List Event) (h : s.inputs = e :: rest) :
    step s = deliver e (s.setInputs rest) := by
  rw [step, h]

/-- What a step does, said once: a Step event of a machine that has been reset runs a cycle, another event changes
the state by its own rule, and the rest is refused. -/
theorem deliver_cases (e : Event) (s : State) :
    (e = .step ∧ s.hasReset = true ∧ deliver e s = cycle s) ∨
    (e = .reset ∧ deliver e s = .next s.resetEvent) ∨
    (∃ img, e = .load img ∧ s.hasReset = true ∧ e.wellFormed = true ∧ deliver e s = .next (s.loadImage img)) ∨
    (e = .tick ∧ s.hasReset = true ∧ deliver e s = .next s.tickEvent) ∨
    (∃ d, e = .timerAdvance d ∧ s.hasReset = true ∧ e.wellFormed = true ∧ deliver e s = .next (s.advanceTime d)) ∨
    (∃ k, e = .keyDown k ∧ deliver e s = .next (s.keyDownEvent k)) ∨
    (∃ k, e = .keyUp k ∧ deliver e s = .next (s.keyUpEvent k)) ∨
    (s.hasReset = false ∧ deliver e s = .refused .beforeReset) ∨
    (∃ img, e = .load img ∧ s.hasReset = true ∧ e.wellFormed = false ∧
      deliver e s = .refused (.imageSize img.length)) ∨
    (∃ d, e = .timerAdvance d ∧ s.hasReset = true ∧ e.wellFormed = false ∧
      deliver e s = .refused .negativeTime) := by
  cases hr : s.hasReset with
  | false =>
    cases e with
    | reset => simp [deliver]
    | keyDown k => simp [deliver]
    | keyUp k => simp [deliver]
    | step => simp [deliver, stepEvent, afterReset_false hr]
    | load img => simp [deliver, afterReset_false hr]
    | tick => simp [deliver, afterReset_false hr]
    | timerAdvance d => simp [deliver, afterReset_false hr]
  | true =>
    cases e with
    | reset => simp [deliver]
    | keyDown k => simp [deliver]
    | keyUp k => simp [deliver]
    | step => simp [deliver, stepEvent, afterReset_true hr]
    | tick => simp [deliver, afterReset_true hr]
    | load img =>
      cases hw : (Event.load img).wellFormed with
      | true => simp [deliver, afterReset_true hr, loadEvent_ok s hw]
      | false => simp [deliver, afterReset_true hr, loadEvent_bad s hw]
    | timerAdvance d =>
      cases hw : (Event.timerAdvance d).wellFormed with
      | true => simp [deliver, afterReset_true hr, timerEvent_ok s hw]
      | false => simp [deliver, afterReset_true hr, timerEvent_bad s hw]

/-- A run unfolds one step. -/
theorem run_succ (n : Nat) {s t : State} (h : step s = .next t) :
    Host.Core.run Sys2Proof.core (n + 1) s = Host.Core.run Sys2Proof.core n t := by
  have e : Sys2Proof.core.step s = .next t := h
  simp only [Host.Core.run]
  rw [e]

/-! Ticks. -/

theorem countDown_toNat (b : Byte) : (countDown b).toNat = b.toNat - 1 := by
  unfold countDown
  split
  · rename_i h
    simp [h]
  · rename_i h
    have : 0 < b.toNat := by
      rcases Nat.eq_zero_or_pos b.toNat with h0 | h0
      · exact absurd (BitVec.eq_of_toNat_eq h0) h
      · exact h0
    have := b.isLt
    rw [BitVec.toNat_sub]
    simp
    omega

/-- `n` Ticks change the two timers only. -/
theorem ticks_eq (n : Nat) (s : State) : ∃ d t, State.ticks n s = (s.setDt d).setSt t ∧
    d.toNat = s.dt.toNat - n ∧ t.toNat = s.st.toNat - n := by
  induction n generalizing s with
  | zero => exact ⟨s.dt, s.st, rfl, rfl, rfl⟩
  | succ n ih =>
    obtain ⟨d, t, h, hd, ht⟩ := ih s.tickEvent
    refine ⟨d, t, h, ?_, ?_⟩
    · rw [hd, State.tickEvent]
      simp only [State.setSt_dt, State.setDt_dt, countDown_toNat]
      omega
    · rw [ht, State.tickEvent]
      simp only [State.setSt_st, countDown_toNat]
      omega

/-- The whole sixtieths of a second in a time. -/
theorem wholeTicks_spec (a : Rat) (h : 0 ≤ a) :
    (wholeTicks a : Rat) / 60 ≤ a ∧ a < ((wholeTicks a : Rat) + 1) / 60 := by
  have h0 : (0 : Int) ≤ ⌊a * 60⌋ := Int.floor_nonneg.2 (by linarith)
  have hc : (wholeTicks a : Rat) = ((⌊a * 60⌋ : Int) : Rat) := by
    have : ((wholeTicks a : Nat) : Int) = ⌊a * 60⌋ := Int.toNat_of_nonneg h0
    rw [← this]
    simp
  rw [hc]
  have h1 := Int.floor_le (a * 60)
  have h2 := Int.lt_floor_add_one (a * 60)
  constructor
  · linarith
  · linarith

end Sys2Proof.Machine
end

