-- ==== Sys2Proof/Laws/PerInstr.lean ====
section
/-! SUPPORT. Families of statements made for every instruction as syntax, one lemma per constructor. -/

namespace Sys2Proof.Laws.EncodesItsRow

/-- The word of an instruction lies in the instruction's own row of the opcode map (30_encoding.md R75). -/
def Statement (i : Instr) : Prop := i.row ∈ opcodeMap ∧ i.row.covers (encode i) = true

theorem covers_XYF (op x y f : Nibble) (p : Word) (h : wordXYN op 0 0 f = p) :
    OpcodeRow.covers ⟨0xF00F, p⟩ (wordXYN op x y f) = true := by
  simpa [OpcodeRow.covers, and_mask_XYF] using h

theorem covers_XFF (op x : Nibble) (f : Byte) (p : Word) (h : wordXNN op 0 f = p) :
    OpcodeRow.covers ⟨0xF0FF, p⟩ (wordXNN op x f) = true := by
  simpa [OpcodeRow.covers, and_mask_XFF] using h

theorem covers_OP (w p : Word) (h : wordNNN (fieldOp w) 0 = p) : OpcodeRow.covers ⟨0xF000, p⟩ w = true := by
  simpa [OpcodeRow.covers, and_mask_OP] using h

theorem cls : Statement (.cls) :=
  ⟨by decide, by decide⟩
theorem ret : Statement (.ret) :=
  ⟨by decide, by decide⟩
theorem jpNnn (nnn : Addr12) : Statement (.jpNnn nnn) :=
  ⟨by simp [opcodeMap, Instr.row], covers_OP _ _ (by rw [encode]; simp; decide)⟩
theorem callNnn (nnn : Addr12) : Statement (.callNnn nnn) :=
  ⟨by simp [opcodeMap, Instr.row], covers_OP _ _ (by rw [encode]; simp; decide)⟩
theorem seVxNn (x : Nibble) (nn : Byte) : Statement (.seVxNn x nn) :=
  ⟨by simp [opcodeMap, Instr.row], covers_OP _ _ (by rw [encode]; simp; decide)⟩
theorem sneVxNn (x : Nibble) (nn : Byte) : Statement (.sneVxNn x nn) :=
  ⟨by simp [opcodeMap, Instr.row], covers_OP _ _ (by rw [encode]; simp; decide)⟩
theorem seVxVy (x : Nibble) (y : Nibble) : Statement (.seVxVy x y) :=
  ⟨by simp [opcodeMap, Instr.row], covers_XYF _ _ _ _ _ (by decide)⟩
theorem ldVxNn (x : Nibble) (nn : Byte) : Statement (.ldVxNn x nn) :=
  ⟨by simp [opcodeMap, Instr.row], covers_OP _ _ (by rw [encode]; simp; decide)⟩
theorem addVxNn (x : Nibble) (nn : Byte) : Statement (.addVxNn x nn) :=
  ⟨by simp [opcodeMap, Instr.row], covers_OP _ _ (by rw [encode]; simp; decide)⟩
theorem ldVxVy (x : Nibble) (y : Nibble) : Statement (.ldVxVy x y) :=
  ⟨by simp [opcodeMap, Instr.row], covers_XYF _ _ _ _ _ (by decide)⟩
theorem orVxVy (x : Nibble) (y : Nibble) : Statement (.orVxVy x y) :=
  ⟨by simp [opcodeMap, Instr.row], covers_XYF _ _ _ _ _ (by decide)⟩
theorem andVxVy (x : Nibble) (y : Nibble) : Statement (.andVxVy x y) :=
  ⟨by simp [opcodeMap, Instr.row], covers_XYF _ _ _ _ _ (by decide)⟩
theorem xorVxVy (x : Nibble) (y : Nibble) : Statement (.xorVxVy x y) :=
  ⟨by simp [opcodeMap, Instr.row], covers_XYF _ _ _ _ _ (by decide)⟩
theorem addVxVy (x : Nibble) (y : Nibble) : Statement (.addVxVy x y) :=
  ⟨by simp [opcodeMap, Instr.row], covers_XYF _ _ _ _ _ (by decide)⟩
theorem subVxVy (x : Nibble) (y : Nibble) : Statement (.subVxVy x y) :=
  ⟨by simp [opcodeMap, Instr.row], covers_XYF _ _ _ _ _ (by decide)⟩
theorem shrVxVy (x : Nibble) (y : Nibble) : Statement (.shrVxVy x y) :=
  ⟨by simp [opcodeMap, Instr.row], covers_XYF _ _ _ _ _ (by decide)⟩
theorem subnVxVy (x : Nibble) (y : Nibble) : Statement (.subnVxVy x y) :=
  ⟨by simp [opcodeMap, Instr.row], covers_XYF _ _ _ _ _ (by decide)⟩
theorem shlVxVy (x : Nibble) (y : Nibble) : Statement (.shlVxVy x y) :=
  ⟨by simp [opcodeMap, Instr.row], covers_XYF _ _ _ _ _ (by decide)⟩
theorem sneVxVy (x : Nibble) (y : Nibble) : Statement (.sneVxVy x y) :=
  ⟨by simp [opcodeMap, Instr.row], covers_XYF _ _ _ _ _ (by decide)⟩
theorem ldINnn (nnn : Addr12) : Statement (.ldINnn nnn) :=
  ⟨by simp [opcodeMap, Instr.row], covers_OP _ _ (by rw [encode]; simp; decide)⟩
theorem jpV0Nnn (nnn : Addr12) : Statement (.jpV0Nnn nnn) :=
  ⟨by simp [opcodeMap, Instr.row], covers_OP _ _ (by rw [encode]; simp; decide)⟩
theorem rndVxNn (x : Nibble) (nn : Byte) : Statement (.rndVxNn x nn) :=
  ⟨by simp [opcodeMap, Instr.row], covers_OP _ _ (by rw [encode]; simp; decide)⟩
theorem drwVxVyN (x : Nibble) (y : Nibble) (n : Nibble) : Statement (.drwVxVyN x y n) :=
  ⟨by simp [opcodeMap, Instr.row], covers_OP _ _ (by rw [encode]; simp; decide)⟩
theorem skpVx (x : Nibble) : Statement (.skpVx x) :=
  ⟨by simp [opcodeMap, Instr.row], covers_XFF _ _ _ _ (by decide)⟩
theorem sknpVx (x : Nibble) : Statement (.sknpVx x) :=
  ⟨by simp [opcodeMap, Instr.row], covers_XFF _ _ _ _ (by decide)⟩
theorem ldVxDt (x : Nibble) : Statement (.ldVxDt x) :=
  ⟨by simp [opcodeMap, Instr.row], covers_XFF _ _ _ _ (by decide)⟩
theorem ldVxK (x : Nibble) : Statement (.ldVxK x) :=
  ⟨by simp [opcodeMap, Instr.row], covers_XFF _ _ _ _ (by decide)⟩
theorem ldDtVx (x : Nibble) : Statement (.ldDtVx x) :=
  ⟨by simp [opcodeMap, Instr.row], covers_XFF _ _ _ _ (by decide)⟩
theorem ldStVx (x : Nibble) : Statement (.ldStVx x) :=
  ⟨by simp [opcodeMap, Instr.row], covers_XFF _ _ _ _ (by decide)⟩
theorem addIVx (x : Nibble) : Statement (.addIVx x) :=
  ⟨by simp [opcodeMap, Instr.row], covers_XFF _ _ _ _ (by decide)⟩
theorem ldFVx (x : Nibble) : Statement (.ldFVx x) :=
  ⟨by simp [opcodeMap, Instr.row], covers_XFF _ _ _ _ (by decide)⟩
theorem ldBVx (x : Nibble) : Statement (.ldBVx x) :=
  ⟨by simp [opcodeMap, Instr.row], covers_XFF _ _ _ _ (by decide)⟩
theorem ldMiVx (x : Nibble) : Statement (.ldMiVx x) :=
  ⟨by simp [opcodeMap, Instr.row], covers_XFF _ _ _ _ (by decide)⟩
theorem ldVxMi (x : Nibble) : Statement (.ldVxMi x) :=
  ⟨by simp [opcodeMap, Instr.row], covers_XFF _ _ _ _ (by decide)⟩

end Sys2Proof.Laws.EncodesItsRow
end

