-- ==== Sys2Proof/Tests/Slice0.lean ====
section
/-! SUPPORT. The model's own tests: ill-formed terms are refused, the words of 30_encoding.md R75 decode to the
instruction they stand for, single steps give the values of spec/95_test_vectors.md (the vector is named at each
test), and every statement's hypotheses are met together by a concrete state. -/

namespace Sys2Proof.Tests

open Sys2Proof Sys2Proof.Machine Sys2Proof.Safety

/-- The state of the vectors: right after reset, the instruction word at 0x200. -/
def placed (w : Nat) : State := State.reset.withFetchWord 16 w

/-- The next state of an outcome, if it has one. -/
def after : Host.Outcome State Fault Refusal → Option State
  | .next s => some s
  | .fault _ => none
  | .refused _ => none

/-- What a refused outcome is refused for. -/
def refusal : Host.Outcome State Fault Refusal → Option Refusal
  | .refused r => some r
  | .next _ => none
  | .fault _ => none

/-- What one step leaves in `V[x]`, `V[0xF]` and `PC`. -/
def regs (x : Nibble) (s : State) : Option (Byte × Byte × Word) :=
  (after (step s)).map (fun t => (t.readV x, t.readV 0xF, t.pc))

/-- What one step leaves in `PC`, `SP`, the stack slot `j` and the report history. -/
def control (j : Fin 16) (s : State) : Option (Word × Nat × Word × List Report) :=
  (after (step s)).map (fun t => (t.pc, t.sp.val, t.stack[j], t.reports))

/-- What one step leaves in `I` and in the four bytes from 0x300 on. -/
def index (s : State) : Option (Word × List Byte) :=
  (after (step s)).map (fun t => (t.i, (List.range 4).map (fun k => t.mem.read (0x300 + k))))

/-- What one step leaves of some pixels (column, row), and in `V[0xF]`. -/
def pixels (at' : List (Nat × Nat)) (s : State) : Option (List Bool × Byte) :=
  (after (step s)).map (fun t => (at'.map (fun p => Frame.get t.fb p.1 p.2), t.readV 0xF))

/-- What one step leaves in the latch and `PC`. -/
def latch (s : State) : Option (Word × Nibble × Bool × Word) :=
  (after (step s)).map (fun t => (t.keys, t.lastKey, t.kRel, t.pc))

/-- What one step leaves in `DT` and `ST`. -/
def timers (s : State) : Option (Byte × Byte) := (after (step s)).map (fun t => (t.dt, t.st))

/-- Vector D1's state: a 0 glyph's rows at 0x300 and `I` there. -/
def sprite (w : Nat) (rows : List Byte) : State := ((placed w).store 0x300 rows).setI 0x300

/-! Ill-formed terms are refused. -/

/-- 30_encoding.md R78. -/
theorem test_word_0000_is_illFormed : wordWellFormed 0x0000 = false := by
  decide

/-- 30_encoding.md R78. -/
theorem test_word_00E1_is_illFormed : wordWellFormed 0x00E1 = false := by
  decide

/-- 30_encoding.md R78. -/
theorem test_word_5001_is_illFormed : wordWellFormed 0x5001 = false := by
  decide

/-- 30_encoding.md R78. -/
theorem test_word_8008_is_illFormed : wordWellFormed 0x8008 = false := by
  decide

/-- 30_encoding.md R78. -/
theorem test_word_800F_is_illFormed : wordWellFormed 0x800F = false := by
  decide

/-- 30_encoding.md R78. -/
theorem test_word_9001_is_illFormed : wordWellFormed 0x9001 = false := by
  decide

/-- 30_encoding.md R78. -/
theorem test_word_E000_is_illFormed : wordWellFormed 0xE000 = false := by
  decide

/-- 30_encoding.md R78. -/
theorem test_word_F166_is_illFormed : wordWellFormed 0xF166 = false := by
  decide

/-- 30_encoding.md R75, row `8XY4`. -/
theorem test_word_8AB4_is_wellFormed : wordWellFormed 0x8AB4 = true := by
  decide

/-- 70_reset_and_hazards.md R208. -/
theorem test_empty_image_is_illFormed : (Event.load []).wellFormed = false := by
  decide

/-- 70_reset_and_hazards.md R208 (source S9). -/
theorem test_image_of_3585_is_illFormed : (Event.load (List.replicate 3585 0)).wellFormed = false := by
  decide +kernel

/-- 70_reset_and_hazards.md R207, vector L3. -/
theorem test_image_of_3584_is_wellFormed : (Event.load (List.replicate 3584 0)).wellFormed = true := by
  decide +kernel

/-- 60_exceptions.md R179 gives `dt >= 0`. -/
theorem test_negative_time_is_illFormed : (Event.timerAdvance (-1)).wellFormed = false := by
  decide +kernel

/-! Words written out from the patterns of 30_encoding.md R75. -/

/-- 30_encoding.md R75, row `00E0`. -/
theorem test_decode_cls :
    decode 0x00E0 = .ok (.cls) ∧ decodeTableWord 16 0x00E0 = some (.cls) := by
  decide

/-- 30_encoding.md R75, row `00EE`. -/
theorem test_decode_ret :
    decode 0x00EE = .ok (.ret) ∧ decodeTableWord 16 0x00EE = some (.ret) := by
  decide

/-- 30_encoding.md R75, row `1NNN` (E1). -/
theorem test_decode_jpNnn :
    decode 0b0001_0010_0011_0100 = .ok (.jpNnn 0x234) ∧ decodeTableWord 16 0b0001_0010_0011_0100 = some (.jpNnn 0x234) := by
  decide

/-- 30_encoding.md R75, row `2NNN`. -/
theorem test_decode_callNnn :
    decode 0b0010_0011_0000_0000 = .ok (.callNnn 0x300) ∧ decodeTableWord 16 0b0010_0011_0000_0000 = some (.callNnn 0x300) := by
  decide

/-- 30_encoding.md R75, row `3XNN` (E4). -/
theorem test_decode_seVxNn :
    decode 0b0011_1100_0111_1111 = .ok (.seVxNn 0xC 0x7F) ∧ decodeTableWord 16 0b0011_1100_0111_1111 = some (.seVxNn 0xC 0x7F) := by
  decide

/-- 30_encoding.md R75, row `4XNN`. -/
theorem test_decode_sneVxNn :
    decode 0b0100_1010_0100_0010 = .ok (.sneVxNn 0xA 0x42) ∧ decodeTableWord 16 0b0100_1010_0100_0010 = some (.sneVxNn 0xA 0x42) := by
  decide

/-- 30_encoding.md R75, row `5XY0`. -/
theorem test_decode_seVxVy :
    decode 0b0101_1010_1011_0000 = .ok (.seVxVy 0xA 0xB) ∧ decodeTableWord 16 0b0101_1010_1011_0000 = some (.seVxVy 0xA 0xB) := by
  decide

/-- 30_encoding.md R75, row `6XNN`. -/
theorem test_decode_ldVxNn :
    decode 0b0110_1010_1000_0001 = .ok (.ldVxNn 0xA 0x81) ∧ decodeTableWord 16 0b0110_1010_1000_0001 = some (.ldVxNn 0xA 0x81) := by
  decide

/-- 30_encoding.md R75, row `7XNN`. -/
theorem test_decode_addVxNn :
    decode 0b0111_0001_1111_1111 = .ok (.addVxNn 1 0xFF) ∧ decodeTableWord 16 0b0111_0001_1111_1111 = some (.addVxNn 1 0xFF) := by
  decide

/-- 30_encoding.md R75, row `8XY0`. -/
theorem test_decode_ldVxVy :
    decode 0b1000_1111_0001_0000 = .ok (.ldVxVy 0xF 1) ∧ decodeTableWord 16 0b1000_1111_0001_0000 = some (.ldVxVy 0xF 1) := by
  decide

/-- 30_encoding.md R75, row `8XY1`. -/
theorem test_decode_orVxVy :
    decode 0b1000_0010_0011_0001 = .ok (.orVxVy 2 3) ∧ decodeTableWord 16 0b1000_0010_0011_0001 = some (.orVxVy 2 3) := by
  decide

/-- 30_encoding.md R75, row `8XY2`. -/
theorem test_decode_andVxVy :
    decode 0b1000_0010_0011_0010 = .ok (.andVxVy 2 3) ∧ decodeTableWord 16 0b1000_0010_0011_0010 = some (.andVxVy 2 3) := by
  decide

/-- 30_encoding.md R75, row `8XY3`. -/
theorem test_decode_xorVxVy :
    decode 0b1000_0010_0011_0011 = .ok (.xorVxVy 2 3) ∧ decodeTableWord 16 0b1000_0010_0011_0011 = some (.xorVxVy 2 3) := by
  decide

/-- 30_encoding.md R75, row `8XY4` (E3). -/
theorem test_decode_addVxVy :
    decode 0b1000_1010_1011_0100 = .ok (.addVxVy 0xA 0xB) ∧ decodeTableWord 16 0b1000_1010_1011_0100 = some (.addVxVy 0xA 0xB) := by
  decide

/-- 30_encoding.md R75, row `8XY5` (P3). -/
theorem test_decode_subVxVy :
    decode 0b1000_1100_1011_0101 = .ok (.subVxVy 0xC 0xB) ∧ decodeTableWord 16 0b1000_1100_1011_0101 = some (.subVxVy 0xC 0xB) := by
  decide

/-- 30_encoding.md R75, row `8XY6` (P3). -/
theorem test_decode_shrVxVy :
    decode 0b1000_1011_1010_0110 = .ok (.shrVxVy 0xB 0xA) ∧ decodeTableWord 16 0b1000_1011_1010_0110 = some (.shrVxVy 0xB 0xA) := by
  decide

/-- 30_encoding.md R75, row `8XY7` (P3). -/
theorem test_decode_subnVxVy :
    decode 0b1000_1100_1011_0111 = .ok (.subnVxVy 0xC 0xB) ∧ decodeTableWord 16 0b1000_1100_1011_0111 = some (.subnVxVy 0xC 0xB) := by
  decide

/-- 30_encoding.md R75, row `8XYE` (P3). -/
theorem test_decode_shlVxVy :
    decode 0b1000_1100_1010_1110 = .ok (.shlVxVy 0xC 0xA) ∧ decodeTableWord 16 0b1000_1100_1010_1110 = some (.shlVxVy 0xC 0xA) := by
  decide

/-- 30_encoding.md R75, row `9XY0`. -/
theorem test_decode_sneVxVy :
    decode 0b1001_1010_1011_0000 = .ok (.sneVxVy 0xA 0xB) ∧ decodeTableWord 16 0b1001_1010_1011_0000 = some (.sneVxVy 0xA 0xB) := by
  decide

/-- 30_encoding.md R75, row `ANNN` (E5). -/
theorem test_decode_ldINnn :
    decode 0b1010_0001_0010_0011 = .ok (.ldINnn 0x123) ∧ decodeTableWord 16 0b1010_0001_0010_0011 = some (.ldINnn 0x123) := by
  decide

/-- 30_encoding.md R75, row `BNNN`. -/
theorem test_decode_jpV0Nnn :
    decode 0b1011_0011_0000_0001 = .ok (.jpV0Nnn 0x301) ∧ decodeTableWord 16 0b1011_0011_0000_0001 = some (.jpV0Nnn 0x301) := by
  decide

/-- 30_encoding.md R75, row `CXNN`. -/
theorem test_decode_rndVxNn :
    decode 0b1100_0010_1111_0000 = .ok (.rndVxNn 2 0xF0) ∧ decodeTableWord 16 0b1100_0010_1111_0000 = some (.rndVxNn 2 0xF0) := by
  decide

/-- 30_encoding.md R75, row `DXYN` (E2). -/
theorem test_decode_drwVxVyN :
    decode 0b1101_0001_0010_1111 = .ok (.drwVxVyN 1 2 0xF) ∧ decodeTableWord 16 0b1101_0001_0010_1111 = some (.drwVxVyN 1 2 0xF) := by
  decide

/-- 30_encoding.md R75, row `EX9E`. -/
theorem test_decode_skpVx :
    decode 0b1110_0101_1001_1110 = .ok (.skpVx 5) ∧ decodeTableWord 16 0b1110_0101_1001_1110 = some (.skpVx 5) := by
  decide

/-- 30_encoding.md R75, row `EXA1`. -/
theorem test_decode_sknpVx :
    decode 0b1110_0101_1010_0001 = .ok (.sknpVx 5) ∧ decodeTableWord 16 0b1110_0101_1010_0001 = some (.sknpVx 5) := by
  decide

/-- 30_encoding.md R75, row `FX07` (P4). -/
theorem test_decode_ldVxDt :
    decode 0b1111_0001_0000_0111 = .ok (.ldVxDt 1) ∧ decodeTableWord 16 0b1111_0001_0000_0111 = some (.ldVxDt 1) := by
  decide

/-- 30_encoding.md R75, row `FX0A` (P4). -/
theorem test_decode_ldVxK :
    decode 0b1111_0010_0000_1010 = .ok (.ldVxK 2) ∧ decodeTableWord 16 0b1111_0010_0000_1010 = some (.ldVxK 2) := by
  decide

/-- 30_encoding.md R75, row `FX15`. -/
theorem test_decode_ldDtVx :
    decode 0b1111_0100_0001_0101 = .ok (.ldDtVx 4) ∧ decodeTableWord 16 0b1111_0100_0001_0101 = some (.ldDtVx 4) := by
  decide

/-- 30_encoding.md R75, row `FX18`. -/
theorem test_decode_ldStVx :
    decode 0b1111_0100_0001_1000 = .ok (.ldStVx 4) ∧ decodeTableWord 16 0b1111_0100_0001_1000 = some (.ldStVx 4) := by
  decide

/-- 30_encoding.md R75, row `FX1E`. -/
theorem test_decode_addIVx :
    decode 0b1111_0100_0001_1110 = .ok (.addIVx 4) ∧ decodeTableWord 16 0b1111_0100_0001_1110 = some (.addIVx 4) := by
  decide

/-- 30_encoding.md R75, row `FX29`. -/
theorem test_decode_ldFVx :
    decode 0b1111_0100_0010_1001 = .ok (.ldFVx 4) ∧ decodeTableWord 16 0b1111_0100_0010_1001 = some (.ldFVx 4) := by
  decide

/-- 30_encoding.md R75, row `FX33`. -/
theorem test_decode_ldBVx :
    decode 0b1111_0100_0011_0011 = .ok (.ldBVx 4) ∧ decodeTableWord 16 0b1111_0100_0011_0011 = some (.ldBVx 4) := by
  decide

/-- 30_encoding.md R75, row `FX55`. -/
theorem test_decode_ldMiVx :
    decode 0b1111_0100_0101_0101 = .ok (.ldMiVx 4) ∧ decodeTableWord 16 0b1111_0100_0101_0101 = some (.ldMiVx 4) := by
  decide

/-- 30_encoding.md R75, row `FX65` (E6). -/
theorem test_decode_ldVxMi :
    decode 0b1111_0001_0110_0101 = .ok (.ldVxMi 1) ∧ decodeTableWord 16 0b1111_0001_0110_0101 = some (.ldVxMi 1) := by
  decide

/-- 30_encoding.md R78 (vector E9 or its family). -/
theorem test_decode_refuses_00E1 : decode 0x00E1 = .error .invalid0 := by
  decide

/-- 30_encoding.md R78 (vector E9 or its family). -/
theorem test_decode_refuses_500F : decode 0x500F = .error .invalid5 := by
  decide

/-- 30_encoding.md R78 (vector E9 or its family). -/
theorem test_decode_refuses_800D : decode 0x800D = .error .invalid8 := by
  decide

/-- 30_encoding.md R78 (vector E9 or its family). -/
theorem test_decode_refuses_9001 : decode 0x9001 = .error .invalid9 := by
  decide

/-- 30_encoding.md R78 (vector E9 or its family). -/
theorem test_decode_refuses_E0A2 : decode 0xE0A2 = .error .invalidE := by
  decide

/-- 30_encoding.md R78 (vector E9 or its family). -/
theorem test_decode_refuses_F0FF : decode 0xF0FF = .error .invalidF := by
  decide

/-- 30_encoding.md R70: an instruction is two bytes. -/
theorem test_decode_refuses_one_byte : decodeBytes [0x12] = .error .truncated := by
  decide

/-! Single steps. -/

/-- Vector D14. -/
theorem test_cls_clears :
    pixels [(0, 0), (63, 31)] (((placed 0x00E0).setFb (Frame.set (Frame.set Config.fbInit 0 0 true) 63 31 true)).writeV 0xF 0x55) =
      some ([false, false], 0x55) := by
  decide +kernel

/-- Vector F11. -/
theorem test_ret_pops_latest :
    control 0 (((placed 0x00EE).setSp 2).setStack ((State.reset.stack.set 0 0x0202).set 1 0x0345)) =
      some (0x0345, 1, 0x0202, []) := by
  decide

/-- Vector F12. -/
theorem test_ret_underflow :
    control 0 (placed 0x00EE) =
      some (0x0202, 0, 0, [.stackUnderflow 0x00EE 0x200]) := by
  decide

/-- Vector F5. -/
theorem test_jp_below_0x200 :
    control 0 (placed 0x1000) =
      some (0x0000, 0, 0, []) := by
  decide

/-- Vector F7. -/
theorem test_call_sixteenth_level :
    control 15 ((placed 0x2300).setSp 15) =
      some (0x0300, 16, 0x0202, []) := by
  decide

/-- Vector F8. -/
theorem test_call_overflow :
    control 15 ((placed 0x2300).setSp 16) =
      some (0x0202, 16, 0, [.stackOverflow 0x2300 0x200]) := by
  decide

/-- Vector F14. -/
theorem test_se_nn_skips :
    regs 0 ((placed 0x3A42).writeV 0xA 0x42) =
      some (0, 0, 0x0204) := by
  decide

/-- Vector F15. -/
theorem test_se_nn_no_skip :
    regs 0 ((placed 0x3A42).writeV 0xA 0x43) =
      some (0, 0, 0x0202) := by
  decide

/-- Vector F16. -/
theorem test_sne_nn_no_skip :
    regs 0 ((placed 0x4A42).writeV 0xA 0x42) =
      some (0, 0, 0x0202) := by
  decide

/-- Vector F17. -/
theorem test_sne_nn_skips :
    regs 0 ((placed 0x4A42).writeV 0xA 0x43) =
      some (0, 0, 0x0204) := by
  decide

/-- Vector F18. -/
theorem test_se_vy_skips :
    regs 0 (((placed 0x5AB0).writeV 0xA 7).writeV 0xB 7) =
      some (0, 0, 0x0204) := by
  decide

/-- Vector F19. -/
theorem test_se_vy_no_skip :
    regs 0 (((placed 0x5AB0).writeV 0xA 7).writeV 0xB 8) =
      some (0, 0, 0x0202) := by
  decide

/-- Vector F22. -/
theorem test_sne_vy_skips :
    regs 0 (((placed 0x9AB0).writeV 0xA 7).writeV 0xB 8) =
      some (0, 0, 0x0204) := by
  decide

/-- Vector F23. -/
theorem test_sne_vy_same_register :
    regs 0 ((placed 0x9AA0).writeV 0xA 9) =
      some (0, 0, 0x0202) := by
  decide

/-- Vector F25. -/
theorem test_jp_v0_not_reduced :
    regs 0 ((placed 0xBFFF).writeV 0 0xFF) =
      some (0xFF, 0, 0x10FE) := by
  decide

/-- Vector A2. -/
theorem test_ld_nn_flag_register :
    regs 0xF ((placed 0x6F00).writeV 0xF 0x12) =
      some (0, 0, 0x0202) := by
  decide

/-- Vector A3. -/
theorem test_add_nn_no_carry :
    regs 0xA (((placed 0x7A01).writeV 0xA 0xFF).writeV 0xF 0x33) =
      some (0, 0x33, 0x0202) := by
  decide

/-- Vector A4 (source S2). -/
theorem test_add_nn_wraps :
    regs 0 ((placed 0x700A).writeV 0 250) =
      some (4, 0, 0x0202) := by
  decide

/-- Vector A7. -/
theorem test_ld_vy :
    regs 0 ((((placed 0x8010).writeV 0 1).writeV 1 0x99).writeV 0xF 0x55) =
      some (0x99, 0x55, 0x0202) := by
  decide

/-- Vector A9. -/
theorem test_or_leaves_flag :
    regs 0 ((((placed 0x8011).writeV 0 0xF0).writeV 1 0x0F).writeV 0xF 0x55) =
      some (0xFF, 0x55, 0x0202) := by
  decide

/-- Vector A10. -/
theorem test_and_leaves_flag :
    regs 0 ((((placed 0x8012).writeV 0 0xF0).writeV 1 0x3C).writeV 0xF 0x55) =
      some (0x30, 0x55, 0x0202) := by
  decide

/-- Vector A11. -/
theorem test_xor_leaves_flag :
    regs 0 ((((placed 0x8013).writeV 0 0xF0).writeV 1 0x3C).writeV 0xF 0x55) =
      some (0xCC, 0x55, 0x0202) := by
  decide

/-- Vector A14 (source S3). -/
theorem test_add_carry :
    regs 0 (((placed 0x8014).writeV 0 200).writeV 1 100) =
      some (0x2C, 1, 0x0202) := by
  decide

/-- Vector A18. -/
theorem test_add_flag_wins :
    regs 0xF (((placed 0x8F14).writeV 0xF 0x01).writeV 1 0xFF) =
      some (1, 1, 0x0202) := by
  decide

/-- Vector A22 (source S4). -/
theorem test_sub_borrow :
    regs 0 (((placed 0x8015).writeV 0 3).writeV 1 10) =
      some (0xF9, 0, 0x0202) := by
  decide

/-- Vector A23. -/
theorem test_sub_equal :
    regs 0 (((placed 0x8015).writeV 0 5).writeV 1 5) =
      some (0, 1, 0x0202) := by
  decide

/-- Vector A29. -/
theorem test_shr_takes_vy :
    regs 0 (((placed 0x8016).writeV 0 0xFF).writeV 1 0x05) =
      some (0x02, 1, 0x0202) := by
  decide

/-- Vector A37. -/
theorem test_shr_flag_wins :
    regs 0xF ((placed 0x8F16).writeV 1 0x03) =
      some (1, 1, 0x0202) := by
  decide

/-- Vector A26. -/
theorem test_subn :
    regs 0 (((placed 0x8017).writeV 0 3).writeV 1 10) =
      some (7, 1, 0x0202) := by
  decide

/-- Vector A27. -/
theorem test_subn_borrow :
    regs 0 (((placed 0x8017).writeV 0 10).writeV 1 3) =
      some (0xF9, 0, 0x0202) := by
  decide

/-- Vector A33. -/
theorem test_shl_takes_vy :
    regs 0 (((placed 0x801E).writeV 0 0xFF).writeV 1 0x81) =
      some (0x02, 1, 0x0202) := by
  decide

/-- Vector A39. -/
theorem test_shl_old_flag_operand :
    regs 0 ((placed 0x80FE).writeV 0xF 0x81) =
      some (0x02, 1, 0x0202) := by
  decide

/-- Vector M2. -/
theorem test_ld_i :
    index (placed 0xAFFF) =
      some (0x0FFF, [0, 0, 0, 0]) := by
  decide

/-- Vector M4. -/
theorem test_add_i_past_12_bits :
    (after (step ((((placed 0xF01E).setI 0x0FFF).writeV 0 1).writeV 0xF 0x77))).map (fun t => (t.i, t.readV 0xF)) =
      some (0x1000, 0x77) := by
  decide

/-- Vector M5. -/
theorem test_add_i_wraps :
    index (((placed 0xF01E).setI 0xFFFF).writeV 0 2) =
      some (0x0001, [0, 0, 0, 0]) := by
  decide

/-- Vector M11. -/
theorem test_font_address_all_8_bits :
    (after (step ((placed 0xF029).writeV 0 0xFF))).map (fun t => t.i) =
      some (BitVec.ofNat 16 (Config.fontBase.val + 1275)) := by
  rfl

/-- Vector M12. -/
theorem test_decimal_255 :
    index (((placed 0xF033).setI 0x300).writeV 0 255) =
      some (0x300, [2, 5, 5, 0]) := by
  decide

/-- Vector M17. -/
theorem test_decimal_high_index :
    index (((placed 0xF033).setI 0x1300).writeV 0 234) =
      some (0x1300, [2, 3, 4, 0]) := by
  decide

/-- Vector M18. -/
theorem test_block_store_three :
    index (((((((placed 0xF255).setI 0x300).writeV 0 0x11).writeV 1 0x22).writeV 2 0x33).writeV 3 0x44)) =
      some (0x300, [0x11, 0x22, 0x33, 0]) := by
  decide

/-- Vector M19. -/
theorem test_block_store_one :
    index ((((placed 0xF055).setI 0x300).writeV 0 0x11).writeV 1 0x22) =
      some (0x300, [0x11, 0, 0, 0]) := by
  decide

/-- Vector M22. -/
theorem test_block_load_three :
    (after (step ((sprite 0xF265 [0xDE, 0xAD, 0xBE, 0xEF]).writeV 3 0x99))).map
      (fun t => (t.readV 0, t.readV 1, t.readV 2, t.readV 3, t.i)) =
      some (0xDE, 0xAD, 0xBE, 0x99, 0x300) := by
  decide

/-- Vector D3. -/
theorem test_draw_sets_and_clips :
    pixels [(59, 0), (60, 0), (63, 0), (0, 0), (0, 1)] ((sprite 0xD011 [0xFF]).writeV 0 60) =
      some ([false, true, true, false, false], 0) := by
  decide +kernel

/-- Vector D7. -/
theorem test_draw_collides :
    pixels [(0, 0), (1, 0), (5, 5)] ((sprite 0xD011 [0xC0]).setFb (Frame.set (Frame.set Config.fbInit 1 0 true) 5 5 true)) =
      some ([true, false, true], 1) := by
  decide +kernel

/-- Vector K15. -/
theorem test_skp_skips :
    regs 0 (((placed 0xE09E).setKeys 0x8000).writeV 0 0x0F) =
      some (0x0F, 0, 0x0204) := by
  decide

/-- Vector K4. -/
theorem test_skp_number_16_is_no_key :
    regs 0 (((placed 0xE09E).setKeys 0xFFFF).writeV 0 0x10) =
      some (0x10, 0, 0x0202) := by
  decide

/-- Vector K3. -/
theorem test_sknp_no_skip :
    regs 0 (((placed 0xE0A1).setKeys 0x0020).writeV 0 5) =
      some (5, 0, 0x0202) := by
  decide

/-- Vector K4. -/
theorem test_sknp_number_16_skips :
    regs 0 (((placed 0xE0A1).setKeys 0xFFFF).writeV 0 0x10) =
      some (0x10, 0, 0x0204) := by
  decide

/-- Vector T6. -/
theorem test_ld_dt_into_v :
    regs 1 ((placed 0xF107).setDt 3) =
      some (3, 0, 0x0202) := by
  decide

/-- Vector K5. -/
theorem test_wait_key_rewinds :
    latch (placed 0xF20A) =
      some (0, 0, false, 0x0200) := by
  decide

/-- Vector K6. -/
theorem test_wait_key_delivers_last_pressed :
    (after (step ((((placed 0xF30A).setKeys 4).setLastKey 2).setKRel true))).map
      (fun t => (t.readV 3, t.kRel, t.keys, t.pc)) =
      some (2, false, 4, 0x0202) := by
  decide

/-- Vector T5. -/
theorem test_ld_v_into_dt :
    timers ((placed 0xF015).writeV 0 3) =
      some (3, 0) := by
  decide

/-- Vector T7. -/
theorem test_ld_v_into_st :
    (after (step ((placed 0xF018).writeV 0 2))).map (fun t => (t.st, t.audioEn)) =
      some (2, true) := by
  decide

/-- Vector A40 for whatever byte is drawn. -/
theorem test_rnd_masks_the_free_byte :
    regs 1 ((placed 0xC1F0).writeV 1 0x5A) =
      some (Config.randomByte 0 &&& 0xF0, 0, 0x0202) := by
  rfl

/-- Vector E8. -/
theorem test_invalid_word :
    control 0 (placed 0x0000) =
      some (0x0202, 0, 0, [.invalidOpcode 0x0000 0x200]) := by
  decide

/-- Vector E10. -/
theorem test_last_word_of_memory :
    regs 0 ((State.reset.setPc 0x0FFE).withFetchWord 16 0x6007) =
      some (7, 0, 0x1000) := by
  decide

/-- Vector E12. -/
theorem test_pc_out_of_range :
    control 0 ((placed 0x6007).setPc 0x0FFF) =
      some (0x0FFF, 0, 0, [.pcOutOfRange 0x0FFF]) := by
  decide

/-- Vector E7. -/
theorem test_odd_pc :
    regs 0 ((State.reset.setPc 0x0201).withFetchWord 16 0x602A) =
      some (0x2A, 0, 0x0203) := by
  decide

/-- Vector T3 without `ST`. -/
theorem test_tick_floor :
    timers (((placed 0).setDt 3).setInputs [.tick]) =
      some (2, 0) := by
  decide

/-- Vector T10. -/
theorem test_timer_advance_two_ticks :
    timers (((placed 0).setDt 10).setInputs [.timerAdvance (1 / 24)]) =
      some (8, 0) := by
  decide +kernel

/-- Vector K7. -/
theorem test_key_down :
    latch ((placed 0).setInputs [.keyDown 7]) =
      some (0x0080, 7, false, 0x0200) := by
  decide

/-- Vector K7. -/
theorem test_key_up :
    latch (((placed 0).setKeys 0x0080).setInputs [.keyUp 7]) =
      some (0, 0, true, 0x0200) := by
  decide

/-- Vectors L1, L6. -/
theorem test_reset_keeps_the_latch :
    latch ((((((placed 0).setKeys 6).setLastKey 2).setKRel true).setPc 0x300).setInputs [.reset]) =
      some (6, 2, true, 0x0200) := by
  decide

/-- Vector L5. -/
theorem test_load_three_bytes :
    (after (step (State.reset.setInputs [.load [0x12, 0x00, 0xAB]]))).map
      (fun t => (t.mem, t.pc)) =
      some ([(0x200, 0x12), (0x202, 0xAB)], 0x0200) := by
  decide

/-- 70_reset_and_hazards.md R208, vector L4. -/
theorem test_load_of_nothing_is_refused :
    refusal (step (State.reset.setInputs [.load []])) =
      some (.imageSize 0) := by
  decide

/-- 70_reset_and_hazards.md R203. -/
theorem test_step_before_reset_is_refused :
    refusal (step (State.reset.setHasReset false)) =
      some .beforeReset := by
  decide


/-! A concrete state and operands for the hypotheses of each statement that has any, at the boundaries of its
clauses. -/

theorem witness_EncodeOfDecodeIsTheWord :
    decode 0x8AB4 = .ok (.addVxVy 0xA 0xB) ∧ decode 0xFF65 = .ok (.ldVxMi 0xF) :=
  by decide

theorem witness_DecoderAcceptsExactlyTheOpcodeMap :
    (0x8AB4 : Word) &&& 0xF00F = 0x8004 ∧ (⟨0xF00F, 0x8004⟩ : OpcodeRow) ∈ opcodeMap ∧ decode 0x8AB4 = .ok (.addVxVy 0xA 0xB) :=
  by decide

theorem witness_DecoderRejectsExactlyTheInvalidFamilies :
    decode 0x0FFF = .error .invalid0 ∧ decode 0x5001 = .error .invalid5 ∧ decode 0x8008 = .error .invalid8 ∧
    decode 0x800F = .error .invalid8 ∧ decode 0x900F = .error .invalid9 ∧ decode 0xE09F = .error .invalidE ∧
    decode 0xF066 = .error .invalidF :=
  by decide

theorem witness_StepRunsTheDecodedInstruction :
    (placed 0x1234).inputs = [] ∧ (placed 0x1234).hasReset = true ∧ (placed 0x1234).pc.toNat ≤ 0x0FFE ∧
    (0x1234 : Word).toNat = 256 * ((placed 0x1234).mem.read (placed 0x1234).pc.toNat).toNat + ((placed 0x1234).mem.read ((placed 0x1234).pc.toNat + 1)).toNat ∧
    decode 0x1234 = .ok (.jpNnn 0x234) :=
  by decide

theorem witness_StepRunsTheDecodedInstruction_lastWord :
    ((State.reset.setPc 0x0FFE).withFetchWord 16 0x6007).inputs = [] ∧ ((State.reset.setPc 0x0FFE).withFetchWord 16 0x6007).hasReset = true ∧ ((State.reset.setPc 0x0FFE).withFetchWord 16 0x6007).pc.toNat ≤ 0x0FFE ∧
    (0x6007 : Word).toNat = 256 * (((State.reset.setPc 0x0FFE).withFetchWord 16 0x6007).mem.read ((State.reset.setPc 0x0FFE).withFetchWord 16 0x6007).pc.toNat).toNat + (((State.reset.setPc 0x0FFE).withFetchWord 16 0x6007).mem.read (((State.reset.setPc 0x0FFE).withFetchWord 16 0x6007).pc.toNat + 1)).toNat ∧
    decode 0x6007 = .ok (.ldVxNn 0 7) :=
  by decide

theorem witness_InvalidWordIsAReportedNoOperation :
    (placed 0x5001).inputs = [] ∧ (placed 0x5001).hasReset = true ∧ (placed 0x5001).pc.toNat ≤ 0x0FFE ∧
    (0x5001 : Word).toNat = 256 * ((placed 0x5001).mem.read (placed 0x5001).pc.toNat).toNat + ((placed 0x5001).mem.read ((placed 0x5001).pc.toNat + 1)).toNat ∧
    decode 0x5001 = .error .invalid5 :=
  by decide

theorem witness_PcOutOfRangeOnlyReportsForEver :
    (State.reset.setPc 0x0FFF).inputs = [] ∧ (State.reset.setPc 0x0FFF).hasReset = true ∧
    0x0FFE < (State.reset.setPc 0x0FFF).pc.toNat :=
  by decide

theorem witness_OnlyCallAndReturnReport :
    (after (exec (.ldINnn 0x123) State.reset)).any (fun t => t.reports == []) = true ∧
    (after (exec (.callNnn 0x300) (State.reset.setSp 16))).any (fun t => t.reports == [.stackOverflow 0x2300 0x1FE]) = true ∧
    (after (exec .ret State.reset)).any (fun t => t.reports == [.stackUnderflow 0x00EE 0x1FE]) = true :=
  by decide

theorem witness_AtMostOneReportInAStep :
    (after (step (placed 0))).any (fun t => t.reports.length == 1) = true ∧
    (after (step (State.reset.setInputs [.tick]))).any (fun t => t.reports == []) = true ∧ Event.tick ≠ .step :=
  by decide

theorem witness_OnlyIllFormedEventsAreRefused :
    State.reset.hasReset = true ∧ (after (step (State.reset.setInputs [.tick]))).any (fun t => t.hasReset) = true ∧
    refusal (step (State.reset.setInputs [.load []])) = some (.imageSize 0) ∧ (Event.load []).wellFormed = false :=
  by decide

theorem witness_StoredBytesAreFetched :
    let s := ((State.reset.setI 0x0FFE).writeV 0 0x12).writeV 1 0x08
    s.mem.wf ∧ 0 < (1 : Nibble).toNat ∧ ea (indexed s.i 0) ≤ 0x0FFE ∧ ∃ t, exec (.ldMiVx 1) s = .next t ∧
      (t.setPc 0x0FFE).mem = t.mem ∧ (t.setPc 0x0FFE).inputs = [] ∧ (t.setPc 0x0FFE).hasReset = true ∧
      (t.setPc 0x0FFE).pc.toNat = ea (indexed s.i 0) ∧
      decode (s.readV 0 ++ s.readV (BitVec.ofNat 4 (0 + 1))) = .ok (.jpNnn 0x208) :=
  ⟨by decide, by decide, by decide, _, rfl, rfl, rfl, rfl, by decide, by decide⟩

theorem witness_PlacedWordRunsNext :
    State.reset.mem.wf ∧ decodeTableWord 16 0xD12F = some (.drwVxVyN 1 2 0xF) :=
  by decide

theorem witness_ParkedStateIsAFixedPoint :
    (placed 0x1200).inputs = [] ∧ (placed 0x1200).hasReset = true ∧ parked (placed 0x1200) :=
  ⟨rfl, rfl, by decide, 0x200, by decide, by decide⟩

theorem witness_ReturnPopsOrReportsUnderflow :
    State.reset.pc = (0x1FE : Word) + 2 ∧ (State.reset.setSp 1).sp = (0 : Fin 16).succ ∧
    (State.reset.setSp 16).sp = (15 : Fin 16).succ ∧ State.reset.sp = 0 :=
  by decide

theorem witness_CallPushesOrReportsOverflow :
    State.reset.pc = (0x1FE : Word) + 2 ∧ State.reset.sp = (0 : Fin 16).castSucc ∧
    (State.reset.setSp 15).sp = (15 : Fin 16).castSucc ∧ (State.reset.setSp 16).sp.val = 16 :=
  by decide

theorem witness_ReturnUndoesCall :
    (State.reset.setSp 15).sp.val < 16 ∧ ∃ t, exec (.callNnn 0x300) (State.reset.setSp 15) = .next t ∧
    (t.setPc 0x0345).sp = t.sp ∧ (t.setPc 0x0345).stack = t.stack :=
  ⟨by decide, _, rfl, rfl, rfl⟩

theorem witness_KeySkipsTestTheLatch :
    let a := (State.reset.setKeys 0x8000).writeV 3 0x0F
    let b := (State.reset.setKeys 0xFFFF).writeV 3 0x10
    (∃ k : Fin 16, (a.readV 3).toNat = k.val ∧ a.keys.getLsbD k.val = true) ∧
    (∀ k : Fin 16, (b.readV 3).toNat = k.val → b.keys.getLsbD k.val = false) :=
  by decide

theorem witness_PcIsChangedOnlyByControlTransfers :
    (after (exec (.jpNnn 0x300) State.reset)).any (fun t => t.pc != State.reset.pc) = true ∧
    (after (exec (.seVxNn 0 0) State.reset)).any (fun t => t.pc == State.reset.pc + 2) = true ∧
    (after (exec (.ldVxK 0) State.reset)).any (fun t => t.pc == State.reset.pc - 2) = true :=
  by decide

theorem witness_AddSetsTheCarry :
    (0 : Nibble) ≠ 0xF ∧ (1 : Nibble) ≠ 0 ∧ (1 : Nibble) ≠ 0xF :=
  by decide

theorem witness_FlagRegisterWriters :
    (after (exec (.ldVxNn 0xF 5) State.reset)).any (fun t => t.readV 0xF != State.reset.readV 0xF) = true ∧
    (after (exec (.subVxVy 0 1) State.reset)).any (fun t => t.readV 0xF != State.reset.readV 0xF) = true :=
  by decide

theorem witness_DecimalStoreWritesThreeDigits :
    (State.reset.setI 0x0FFE).mem.wf ∧ ea (indexed (State.reset.setI 0x0FFE).i 2) = 0 ∧
    (∀ k < 3, 5 ≠ ea (indexed (State.reset.setI 0x0FFE).i k)) :=
  by decide

theorem witness_BlockStoreWritesRegisters :
    (State.reset.setI 0xFFFF).mem.wf ∧ (0 : Nibble).toNat ≤ (0xF : Nibble).toNat ∧
    (∀ k ≤ (0xF : Nibble).toNat, 0x10 ≠ ea (indexed (State.reset.setI 0xFFFF).i k)) :=
  by decide

theorem witness_BlockLoadReadsRegisters :
    (2 : Nibble).toNat ≤ (2 : Nibble).toNat ∧ (2 : Nibble).toNat < (3 : Nibble).toNat :=
  by decide

theorem witness_BlockLoadUndoesBlockStore :
    State.reset.mem.wf ∧ ∃ t, exec (.ldMiVx 0xF) State.reset = .next t ∧ (t.writeV 3 9).mem = t.mem ∧
    (t.writeV 3 9).i = State.reset.i :=
  ⟨by decide, _, rfl, rfl, rfl⟩

theorem witness_EachFieldHasItsWriters :
    (after (exec (.ldINnn 0x123) State.reset)).any (fun t => t.i != State.reset.i) = true ∧
    (after (exec (.callNnn 0x300) State.reset)).any (fun t => t.sp != State.reset.sp) = true ∧
    (after (exec (.ldDtVx 0) (State.reset.setDt 3))).any (fun t => t.dt != 3) = true ∧
    (after (exec (.ldStVx 0) (State.reset.setSt 3))).any (fun t => t.st != 3) = true ∧
    (after (exec (.ldVxK 0) (State.reset.setKRel true))).any (fun t => !t.kRel) = true ∧
    (after (exec .cls (State.reset.setFb (Frame.set Config.fbInit 0 0 true)))).any (fun t => !Frame.get t.fb 0 0) = true ∧
    (after (exec (.ldMiVx 0) ((State.reset.setI 0x300).writeV 0 1))).any (fun t => t.mem.read 0x300 != 0) = true :=
  by decide +kernel

theorem witness_PoppedSlotsAreUnobservable :
    let s := State.reset.setSp 1
    (∀ j : Fin 16, j.val < s.sp.val → (s.stack.set 1 0x0345)[j] = s.stack[j]) ∧ s.stack.set 1 0x0345 ≠ s.stack :=
  by decide

theorem witness_DrawTurnsOverThePixelsUnderTheSprite :
    let s := sprite 0xD011 [0xC0]
    let rows : List Byte := [0xC0]
    rows.length = (1 : Nibble).toNat ∧ (∀ r (h : r < rows.length), rows[r] = s.mem.read (ea (indexed s.i r))) :=
  by
    refine ⟨rfl, fun r h => ?_⟩
    have : r = 0 := by simpa using h
    subst this
    rfl

theorem witness_DrawSetsTheCollisionFlag :
    let s := sprite 0xD010 [0xC0]
    let rows : List Byte := []
    rows.length = (0 : Nibble).toNat ∧ (∀ r (h : r < rows.length), rows[r] = s.mem.read (ea (indexed s.i r))) ∧
      ∃ t, exec (.drwVxVyN 0 1 0) s = .next t :=
  ⟨rfl, fun r h => absurd h (by simp), _, rfl⟩

theorem witness_DrawSetsTheCollisionFlag_hit :
    let s := (sprite 0xD011 [0xC0]).setFb (Frame.set Config.fbInit 1 0 true)
    let rows : List Byte := [0xC0]
    rows.length = (1 : Nibble).toNat ∧ (∀ r (h : r < rows.length), rows[r] = s.mem.read (ea (indexed s.i r))) ∧
      s.fb[(0 : Fin 32)][(1 : Fin 64)] = true ∧
      spriteBit ((s.readV 0).toNat % 64) ((s.readV 1).toNat % 32) rows 1 0 = true ∧
      ∃ t, exec (.drwVxVyN 0 1 1) s = .next t :=
  by
    refine ⟨rfl, fun r h => ?_, by decide +kernel, by decide +kernel, _, rfl⟩
    have : r = 0 := by simpa using h
    subst this
    rfl

theorem witness_DrawingTwiceRestoresTheFrame :
    (0 : Nibble) ≠ 0xF ∧ (1 : Nibble) ≠ 0xF ∧
    ∀ (row : Fin 32) (col : Fin 64), (sprite 0xD015 [0xF0, 0x90]).fb[row][col] = false :=
  by
    refine ⟨by decide, by decide, fun row col => ?_⟩
    show Config.fbInit[row][col] = false
    simp [Config.fbInit]

theorem witness_WaitForKeyRewindsOrDelivers :
    State.reset.pc = (0x1FE : Word) + 2 ∧ State.reset.kRel = false ∧ (State.reset.setKRel true).kRel = true ∧
    (State.reset.setKRel true).pc = (0x1FE : Word) + 2 :=
  by decide

theorem witness_WaitForKeyWaitsForEver :
    (placed 0xF20A).inputs = [] ∧ (placed 0xF20A).hasReset = true ∧ (placed 0xF20A).pc.toNat ≤ 0x0FFE ∧
    decode (placed 0xF20A).fetchWord = .ok (.ldVxK 2) ∧ (placed 0xF20A).kRel = false :=
  by decide

theorem witness_AudioEdges :
    (after (exec (.ldStVx 0) (State.reset.writeV 0 2))).any (fun t => toneCall State.reset t == some true) = true ∧
    (after (exec (.ldStVx 0) (State.reset.setSt 5))).any (fun t => toneCall (State.reset.setSt 5) t == some false) = true ∧
    toneCall (State.reset.setSt 1) (State.reset.setSt 1).tickEvent = some false ∧
    toneCall (State.reset.setSt 2) (State.reset.setSt 2).tickEvent = none ∧
    toneCall (State.reset.setSt 5) (State.reset.setSt 5).resetEvent = some false :=
  by decide

theorem witness_TickCountsDownWithFloor :
    (State.reset.setInputs [.tick, .tick, .reset]).inputs = List.replicate 2 .tick ++ [.reset] ∧
    (State.reset.setInputs []).inputs = List.replicate 0 .tick ++ [] ∧ State.reset.hasReset = true :=
  ⟨rfl, rfl, rfl⟩

theorem witness_TimerAdvanceTicksWholeSixtieths :
    (State.reset.setInputs [.timerAdvance 1]).inputs = .timerAdvance 1 :: [] ∧
    (State.reset.setInputs [.timerAdvance 1]).hasReset = true ∧ (0 : Rat) ≤ 1 ∧ 0 ≤ State.reset.acc :=
  ⟨rfl, rfl, by decide +kernel, by decide +kernel⟩

theorem witness_KeyEventsSetTheLatch :
    (State.reset.setInputs [.keyDown 0xF]).inputs = .keyDown 0xF :: [] ∧
    (State.reset.setInputs [.keyUp 0]).inputs = .keyUp 0 :: [] :=
  ⟨rfl, rfl⟩

theorem witness_ResetLeavesTheListedState :
    (State.reset.setInputs [.reset]).inputs = .reset :: [] :=
  rfl

theorem witness_ResetLeavesTheLatchAndTheFrame :
    ((State.reset.setKeys 6).setInputs [.reset, .step]).inputs = .reset :: [.step] :=
  rfl

theorem witness_ResetIsIdempotentAndStartsTheMachine :
    poweredOn (State.reset.setHasReset false) :=
  ⟨rfl, rfl, rfl, rfl, rfl⟩

theorem witness_NothingRunsBeforeTheFirstReset :
    let s := State.reset.setHasReset false
    s.hasReset = false ∧ s.inputs = [] ∧ (s.setInputs [.load []]).inputs = .load [] :: [] ∧
      (s.setInputs [.tick]).hasReset = false ∧ (s.setInputs [.keyUp 3]).inputs = .keyUp 3 :: [] :=
  ⟨rfl, rfl, rfl, rfl, rfl⟩

theorem witness_LoadCopiesTheImage :
    (State.reset.setInputs [.load [0xAB]]).inputs = .load [0xAB] :: [] ∧ State.reset.hasReset = true ∧
    1 ≤ [(0xAB : Byte)].length ∧ (List.replicate 3584 (0 : Byte)).length ≤ 3584 ∧ State.reset.mem.wf :=
  ⟨rfl, rfl, by decide, by rw [List.length_replicate], by decide⟩

theorem witness_BadImagesAreRefused :
    (State.reset.setInputs [.load []]).inputs = .load [] :: [] ∧ State.reset.hasReset = true ∧
    ([] : List Byte).length = 0 ∧ 3584 < (List.replicate 3585 (0 : Byte)).length :=
  ⟨rfl, rfl, rfl, by rw [List.length_replicate]; decide⟩

theorem witness_StepKeepsTheInvariant :
    Inv State.reset ∧ (after (step State.reset)).any (fun t => t.pc == 0x0202) = true :=
  by
    refine ⟨⟨by decide, by decide +kernel, by decide +kernel, by decide, by decide⟩, by decide⟩

theorem witness_StrictStepIsAStepWithoutReport :
    (after (step (placed 0x1200))).any (fun t => t.reports == (placed 0x1200).reports) = true ∧
    (after (step (placed 0))).any (fun t => t.reports == .invalidOpcode 0 0x200 :: (placed 0).reports) = true :=
  by decide

/-! The statements whose only hypotheses are that a register is not the destination, or not `V[0xF]`. -/

theorem witness_ImmediateOperationsWriteOneRegister : (0xF : Nibble) ≠ 0 := by decide

theorem witness_BitwiseOperationsLeaveTheFlag : (0xF : Nibble) ≠ 0 := by decide

theorem witness_SubtractionsSetNoBorrow : (0 : Nibble) ≠ 0xF ∧ (1 : Nibble) ≠ 0 ∧ (1 : Nibble) ≠ 0xF := by decide

theorem witness_ShiftsMoveVyAndKeepTheBitOut : (0 : Nibble) ≠ 0xF ∧ (1 : Nibble) ≠ 0 ∧ (1 : Nibble) ≠ 0xF := by
  decide

theorem witness_RandomByteIsMasked : (0xF : Nibble) ≠ 0 := by decide

theorem witness_TimerInstructionsMoveOneByte : (0xF : Nibble) ≠ 0 := by decide

theorem witness_NoInstructionReadsSoundTimer :
    (∃ x, Instr.ldStVx 3 = .ldStVx x) ∧ ∀ x, Instr.ldDtVx 3 ≠ .ldStVx x :=
  ⟨⟨3, rfl⟩, fun _ h => by cases h⟩

end Sys2Proof.Tests
end

section
/-! SUPPORT. The statements of 10_state.md about single instructions and steps: the invariant, what can change
`PC` and `V[0xF]`, and what no instruction can observe. -/

namespace Sys2Proof.Machine

open Sys2Proof.Safety

/-! What each meaning that branches can end in. -/

theorem execRet_cases {s t : State} (h : execRet s = .next t) :
    (∃ hs : 0 < s.sp.val, t = (s.setSp ⟨s.sp.val - 1, by have := s.sp.isLt; omega⟩).setPc
      (s.stack[s.sp.val - 1]'(by have := s.sp.isLt; omega))) ∨
    (s.sp.val = 0 ∧ t = s.emit (.stackUnderflow 0x00EE (s.pc - 2))) := by
  by_cases hs : 0 < s.sp.val
  · cases (execRet_pop s hs).symm.trans h
    exact .inl ⟨hs, rfl⟩
  · have h0 : s.sp.val = 0 := by omega
    cases (execRet_underflow s h0).symm.trans h
    exact .inr ⟨h0, rfl⟩

theorem execCallNnn_cases {nnn : Addr12} {s t : State} (h : execCallNnn nnn s = .next t) :
    (∃ hs : s.sp.val < 16, t = ((s.setStack (s.stack.set s.sp.val s.pc hs)).setSp
      ⟨s.sp.val + 1, by omega⟩).setPc (zextAddr nnn)) ∨
    (s.sp.val = 16 ∧ t = s.emit (.stackOverflow (wordNNN 0x2 nnn) (s.pc - 2))) := by
  by_cases hs : s.sp.val < 16
  · cases (execCallNnn_push nnn s hs).symm.trans h
    exact .inl ⟨hs, rfl⟩
  · have h16 : s.sp.val = 16 := by omega
    cases (execCallNnn_overflow nnn s h16).symm.trans h
    exact .inr ⟨h16, rfl⟩

theorem execLdVxK_cases {x : Nibble} {s t : State} (h : execLdVxK x s = .next t) :
    (s.kRel = false ∧ t = s.setPc (s.pc - 2)) ∨
    (s.kRel = true ∧ t = (s.writeV x (zextKey s.lastKey)).setKRel false) := by
  cases hk : s.kRel with
  | false =>
    cases (execLdVxK_wait x s hk).symm.trans h
    exact .inl ⟨rfl, rfl⟩
  | true =>
    cases (execLdVxK_deliver x s hk).symm.trans h
    exact .inr ⟨rfl, rfl⟩

/-! What an instruction can do to control and memory, said once. -/

/-- The six conditional skips (41_control_flow.md R100). -/
def isSkip : Instr → Bool
  | .seVxNn _ _ | .sneVxNn _ _ | .seVxVy _ _ | .sneVxVy _ _ | .skpVx _ | .sknpVx _ => true
  | _ => false

/-- The effect of `i` from `s` to `t`, seen through the fields that `Inv` constrains: `PC`, the stack slots, memory
and the accumulator. -/
inductive ControlEffect (s : State) : Instr → State → Prop
  /-- An ordinary instruction, a skip not taken, a delivered key, a report: none of the four fields moves. -/
  | unchanged {i : Instr} {t : State} (pc : t.pc = s.pc) (stack : t.stack = s.stack) (mem : t.mem = s.mem)
      (acc : t.acc = s.acc) : ControlEffect s i t
  | store {i : Instr} (base : Word) (bytes : List Byte) : ControlEffect s i (s.store base bytes)
  | skip {i : Instr} (h : isSkip i = true) : ControlEffect s i (s.setPc (s.pc + 2))
  | wait (x : Nibble) (h : s.kRel = false) : ControlEffect s (.ldVxK x) (s.setPc (s.pc - 2))
  | jump (nnn : Addr12) : ControlEffect s (.jpNnn nnn) (s.setPc (zextAddr nnn))
  | jumpV0 (nnn : Addr12) : ControlEffect s (.jpV0Nnn nnn) (s.setPc (zextAddr nnn + zextByte (s.readV 0x0)))
  | call (nnn : Addr12) (h : s.sp.val < 16) : ControlEffect s (.callNnn nnn)
      (((s.setStack (s.stack.set s.sp.val s.pc h)).setSp ⟨s.sp.val + 1, by omega⟩).setPc (zextAddr nnn))
  | ret (h : 0 < s.sp.val) : ControlEffect s .ret
      ((s.setSp ⟨s.sp.val - 1, by have := s.sp.isLt; omega⟩).setPc
        (s.stack[s.sp.val - 1]'(by have := s.sp.isLt; omega)))

theorem controlEffect_skipIf {i : Instr} (h : isSkip i = true) (s : State) (c : Bool) :
    ControlEffect s i (s.skipIf c) := by
  cases c with
  | false => exact .unchanged rfl rfl rfl rfl
  | true => exact .skip h

theorem exec_controlEffect {i : Instr} {s t : State} (h : exec i s = .next t) : ControlEffect s i t := by
  cases i with
  | ret =>
    obtain ⟨hs, rfl⟩ | ⟨-, rfl⟩ := execRet_cases h
    · exact .ret hs
    · exact .unchanged rfl rfl rfl rfl
  | callNnn nnn =>
    obtain ⟨hs, rfl⟩ | ⟨-, rfl⟩ := execCallNnn_cases h
    · exact .call nnn hs
    · exact .unchanged rfl rfl rfl rfl
  | ldVxK x =>
    obtain ⟨hk, rfl⟩ | ⟨-, rfl⟩ := execLdVxK_cases h
    · exact .wait x hk
    · exact .unchanged rfl rfl rfl rfl
  | seVxNn | sneVxNn | seVxVy | sneVxVy | skpVx | sknpVx =>
    cases h
    exact controlEffect_skipIf rfl s _
  | jpNnn nnn =>
    cases h
    exact .jump nnn
  | jpV0Nnn nnn =>
    cases h
    exact .jumpV0 nnn
  | ldBVx | ldMiVx =>
    cases h
    exact .store _ _
  | _ =>
    cases h
    exact .unchanged rfl rfl rfl rfl

/-! The invariant. -/

/-- The invariant speaks of four fields only. -/
theorem Inv_of_fields {s t : State} (h : Inv s) (pc : t.pc = s.pc) (stack : t.stack = s.stack)
    (mem : t.mem = s.mem) (acc : t.acc = s.acc) : Inv t where
  mem_wf := mem ▸ h.mem_wf
  acc_nonneg := acc ▸ h.acc_nonneg
  acc_lt := acc ▸ h.acc_lt
  pc_le := pc ▸ h.pc_le
  stack_le := stack ▸ h.stack_le

theorem Inv_setPc {s : State} (h : Inv s) {a : Word} (ha : a.toNat ≤ 0x10FE) : Inv (s.setPc a) :=
  { h with pc_le := ha }

theorem Inv_setSp {s : State} (h : Inv s) (n : Fin 17) : Inv (s.setSp n) :=
  Inv_of_fields h rfl rfl rfl rfl

theorem Inv_store {s : State} (h : Inv s) (base : Word) (bytes : List Byte) : Inv (s.store base bytes) :=
  { h with mem_wf := Memory.storeFrom_wf h.mem_wf base 0 bytes }

theorem Inv_setStack_set {s : State} (h : Inv s) (n : Nat) (hn : n < 16) {a : Word} (ha : a.toNat ≤ 0x1000) :
    Inv (s.setStack (s.stack.set n a hn)) :=
  { h with
    stack_le := fun j => by
      rw [State.setStack_stack, Fin.getElem_fin, Vector.getElem_set]
      split
      · exact ha
      · exact h.stack_le j }

theorem zextAddr_toNat_lt (nnn : Addr12) : (zextAddr nnn).toNat < 0x1000 := by
  rw [zextAddr, BitVec.toNat_setWidth_of_le (by omega)]
  exact nnn.isLt

/-- The target of `BNNN` is at most `0xFFF + 0xFF`, the largest `PC` there is (10_state.md R25). -/
theorem jumpV0Target_toNat_le (nnn : Addr12) (b : Byte) : (zextAddr nnn + zextByte b).toNat ≤ 0x10FE := by
  have hn := zextAddr_toNat_lt nnn
  have hb : (zextByte b).toNat < 0x100 := by
    rw [zextByte, BitVec.toNat_setWidth_of_le (by omega)]
    exact b.isLt
  rw [BitVec.toNat_add]
  omega

/-- An instruction keeps the invariant from the state the cycle leaves, whose `PC` is the `A + 2` of an
`A <= 0x0FFE`. -/
theorem exec_keeps_Inv {i : Instr} {s t : State} (h : exec i s = .next t) (hi : Inv s)
    (hlo : 2 ≤ s.pc.toNat) (hhi : s.pc.toNat ≤ 0x1000) : Inv t := by
  cases exec_controlEffect h with
  | unchanged pc stack mem acc => exact Inv_of_fields hi pc stack mem acc
  | store base bytes => exact Inv_store hi base bytes
  | skip => exact Inv_setPc hi (by bv_omega)
  | wait => exact Inv_setPc hi (by bv_omega)
  | jump nnn => exact Inv_setPc hi (by have := zextAddr_toNat_lt nnn; omega)
  | jumpV0 nnn => exact Inv_setPc hi (jumpV0Target_toNat_le nnn _)
  | call nnn hs =>
    have hpush := Inv_setStack_set hi s.sp.val hs hhi
    exact Inv_setPc (Inv_setSp hpush _) (by have := zextAddr_toNat_lt nnn; omega)
  | ret hs =>
    have hslot := hi.stack_le ⟨s.sp.val - 1, by omega⟩
    exact Inv_setPc (Inv_setSp hi _) (le_trans hslot (by decide))

theorem cycle_keeps_Inv {s t : State} (h : cycle s = .next t) (hi : Inv s) : Inv t := by
  rcases cycle_cases s with ⟨hpc, i, -, hc⟩ | ⟨hpc, e, -, hc⟩ | ⟨-, hc⟩
  · have hadv : s.advance.pc.toNat = s.pc.toNat + 2 := by
      rw [State.advance_pc]
      bv_omega
    exact exec_keeps_Inv (hc.symm.trans h) (Inv_setPc hi (by bv_omega)) (by omega) (by omega)
  · cases hc.symm.trans h
    exact Inv_of_fields (Inv_setPc hi (a := s.pc + 2) (by bv_omega)) rfl rfl rfl rfl
  · cases hc.symm.trans h
    exact Inv_of_fields hi rfl rfl rfl rfl

theorem resetEvent_keeps_Inv {s : State} (h : Inv s) : Inv s.resetEvent where
  mem_wf := by simp [State.resetEvent, Memory.wf]
  acc_nonneg := h.acc_nonneg
  acc_lt := h.acc_lt
  pc_le := by simp [State.resetEvent, Config.programStart]
  stack_le := by simp [State.resetEvent]

/-- A TimerAdvance leaves the remainder of the whole sixtieths in the accumulator (60_exceptions.md R179). -/
theorem advanceTime_keeps_Inv {s : State} (h : Inv s) {d : Rat} (hd : 0 ≤ d) : Inv (s.advanceTime d) := by
  obtain ⟨dt, st, hticks, -, -⟩ := ticks_eq (wholeTicks (s.acc + d)) s
  obtain ⟨hle, hlt⟩ := wholeTicks_spec (s.acc + d) (add_nonneg h.acc_nonneg hd)
  have hhz : (Config.tickHz : Rat) = 60 := by norm_num [Config.tickHz]
  rw [State.advanceTime, hticks, hhz]
  exact { h with
    acc_nonneg := by rw [State.setAcc_acc]; linarith
    acc_lt := by rw [State.setAcc_acc]; linarith }

theorem deliver_keeps_Inv {e : Event} {s t : State} (h : deliver e s = .next t) (hi : Inv s) : Inv t := by
  rcases deliver_cases e s with ⟨-, -, hc⟩ | ⟨-, hc⟩ | ⟨img, -, -, -, hc⟩ | ⟨-, -, hc⟩ | ⟨d, he, -, hw, hc⟩ |
    ⟨k, -, hc⟩ | ⟨k, -, hc⟩ | ⟨-, hc⟩ | ⟨img, -, -, -, hc⟩ | ⟨d, -, -, -, hc⟩ <;> rw [hc] at h
  case inl => exact cycle_keeps_Inv h hi
  all_goals cases h
  · exact resetEvent_keeps_Inv hi
  · exact Inv_store hi _ img
  · exact Inv_of_fields hi rfl rfl rfl rfl
  · exact advanceTime_keeps_Inv hi ((wellFormed_timerAdvance d).1 (he ▸ hw))
  · exact Inv_of_fields hi rfl rfl rfl rfl
  · exact Inv_of_fields hi rfl rfl rfl rfl

/-- Settles O57: one step delivers one event, and each event keeps the invariant. -/
theorem stepKeepsTheInvariant : Obligations.StepKeepsTheInvariant := by
  intro s t hi h
  cases hin : s.inputs with
  | nil =>
    rw [step, hin] at h
    exact deliver_keeps_Inv (e := .step) h hi
  | cons e rest =>
    rw [step_cons s e rest hin] at h
    exact deliver_keeps_Inv h (Inv_of_fields hi rfl rfl rfl rfl)

/-! What can change `PC`. -/

theorem isSkip_iff (i : Instr) : isSkip i = true ↔
    (∃ x n, i = .seVxNn x n) ∨ (∃ x n, i = .sneVxNn x n) ∨ (∃ x y, i = .seVxVy x y) ∨
      (∃ x y, i = .sneVxVy x y) ∨ (∃ x, i = .skpVx x) ∨ (∃ x, i = .sknpVx x) := by
  cases i <;> simp [isSkip]

/-- Settles O23: of the effects an instruction can have, these are the ones that move `PC`. -/
theorem pcIsChangedOnlyByControlTransfers : Obligations.PcIsChangedOnlyByControlTransfers := by
  intro i s t h hne
  cases exec_controlEffect h with
  | unchanged pc => exact absurd pc hne
  | store => exact absurd rfl hne
  | ret => exact .inl rfl
  | jump nnn => exact .inr (.inl ⟨nnn, rfl⟩)
  | call nnn => exact .inr (.inr (.inl ⟨nnn, rfl⟩))
  | jumpV0 nnn => exact .inr (.inr (.inr (.inl ⟨nnn, rfl⟩)))
  | skip hs => exact .inr (.inr (.inr (.inr (.inl ⟨rfl, (isSkip_iff i).1 hs⟩))))
  | wait x hk => exact .inr (.inr (.inr (.inr (.inr ⟨rfl, hk, x, rfl⟩))))

/-! What can change `V[0xF]`. -/

theorem eq_of_readV_writeV_ne {s : State} {x y : Nibble} {b : Byte} (h : (s.writeV x b).readV y ≠ s.readV y) :
    x = y := by
  by_contra hxy
  exact h (by rw [State.readV_writeV, if_neg hxy])

/-- A block load of `V[0]` to `V[X]` reaches `V[0xF]` only with `X = 0xF` (43_index_memory.md R136). -/
theorem eq_of_flag_writeRegs_ne {s : State} {x : Nibble} {base : Word}
    (h : (s.writeRegs (s.loadBytes base (x.toNat + 1))).readV 0xF ≠ s.readV 0xF) : x = 0xF := by
  by_contra hx
  have hlt : x.toNat < 15 := by bv_omega
  apply h
  have hlen := State.loadBytes_length s base (x.toNat + 1)
  rw [State.readV_writeRegs _ _ (by omega), dif_neg]
  show ¬ 15 < _
  omega

/-- Settles O30, by the instruction: the flag writers and `DXYN` stand in the list, a writer of one register changes
`V[0xF]` only as its destination, and the other instructions write no register. -/
theorem flagRegisterWriters : Obligations.FlagRegisterWriters := by
  intro i s t h hne
  cases i with
  | addVxVy x y | subVxVy x y | shrVxVy x y | subnVxVy x y | shlVxVy x y => exact .inl ⟨x, y, by simp⟩
  | drwVxVyN x y n => exact .inr (.inl ⟨x, y, n, rfl⟩)
  | ldVxNn x n | addVxNn x n | rndVxNn x n =>
    cases h
    obtain rfl := eq_of_readV_writeV_ne hne
    exact .inr (.inr (.inl ⟨n, by simp⟩))
  | ldVxVy x y | orVxVy x y | andVxVy x y | xorVxVy x y =>
    cases h
    obtain rfl := eq_of_readV_writeV_ne hne
    exact .inr (.inr (.inr (.inl ⟨y, by simp⟩)))
  | ldVxDt x =>
    cases h
    obtain rfl := eq_of_readV_writeV_ne hne
    simp
  | ldVxK x =>
    obtain ⟨-, rfl⟩ | ⟨-, rfl⟩ := execLdVxK_cases h
    · exact absurd rfl hne
    · obtain rfl := eq_of_readV_writeV_ne hne
      simp
  | ldVxMi x =>
    cases h
    obtain rfl := eq_of_flag_writeRegs_ne hne
    simp
  | ret =>
    obtain ⟨_, rfl⟩ | ⟨-, rfl⟩ := execRet_cases h <;> exact absurd rfl hne
  | callNnn =>
    obtain ⟨_, rfl⟩ | ⟨-, rfl⟩ := execCallNnn_cases h <;> exact absurd rfl hne
  | seVxNn | sneVxNn | seVxVy | sneVxVy | skpVx | sknpVx =>
    cases h
    exact absurd (State.readV_skipIf s _ _) hne
  | _ =>
    cases h
    exact absurd rfl hne

/-! What no instruction observes: `ST`, and the stack slots at index `SP` and above. -/

/-- The stack `k` in the place of the stack of `s` cannot be told from it by pops (10_state.md R32). -/
def AgreesBelowSp (s : State) (k : Vector Word 16) : Prop :=
  ∀ j : Fin 16, j.val < s.sp.val → k[j] = s.stack[j]

/-- `i` does not observe that the stack is `k` and `ST` is `b`: from there it ends where it ends from `s`, but for
`ST` and for a stack that again cannot be told from the other one, and is the other one if `k` was. -/
def Unobserved (i : Instr) (s : State) (k : Vector Word 16) (b : Byte) : Prop :=
  ∃ t k', exec i s = .next t ∧ exec i ((s.setStack k).setSt b) = .next ((t.setStack k').setSt b) ∧
    AgreesBelowSp t k' ∧ (k = s.stack → k' = t.stack) ∧ t.st = s.st

section
variable {i : Instr} {s t : State} {k : Vector Word 16}

/-- The instruction writes no slot and no `ST`, and pushes nothing. -/
theorem unobserved_of_stack_eq (hk : AgreesBelowSp s k) {b : Byte} (hs : exec i s = .next t)
    (hsk : exec i ((s.setStack k).setSt b) = .next ((t.setStack k).setSt b)) (hstack : t.stack = s.stack)
    (hsp : t.sp.val ≤ s.sp.val) (hst : t.st = s.st) : Unobserved i s k b := by
  refine ⟨t, k, hs, hsk, fun j hj => ?_, fun hks => hks.trans hstack.symm, hst⟩
  rw [hstack]
  exact hk j (by omega)

theorem unobserved_skip (hk : AgreesBelowSp s k) (b : Byte) {c : Bool} (hs : exec i s = .next (s.skipIf c))
    (hsk : exec i ((s.setStack k).setSt b) = .next (((s.setStack k).setSt b).skipIf c)) : Unobserved i s k b := by
  cases c with
  | false => exact unobserved_of_stack_eq hk hs hsk rfl le_rfl rfl
  | true => exact unobserved_of_stack_eq hk hs hsk rfl le_rfl rfl

theorem unobserved_ret (hk : AgreesBelowSp s k) (b : Byte) : Unobserved .ret s k b := by
  by_cases hs : 0 < s.sp.val
  · have hslot : k[s.sp.val - 1] = s.stack[s.sp.val - 1] := hk ⟨s.sp.val - 1, by omega⟩ (Nat.sub_lt hs Nat.one_pos)
    refine unobserved_of_stack_eq hk (execRet_pop s hs) ?_ rfl (Nat.sub_le _ _) rfl
    rw [← hslot]
    exact execRet_pop ((s.setStack k).setSt b) hs
  · have h0 : s.sp.val = 0 := by omega
    exact unobserved_of_stack_eq hk (execRet_underflow s h0) (execRet_underflow ((s.setStack k).setSt b) h0)
      rfl le_rfl rfl

/-- A call writes the same slot in both stacks, the one that the new `SP` uncovers. -/
theorem unobserved_callNnn (hk : AgreesBelowSp s k) (nnn : Addr12) (b : Byte) : Unobserved (.callNnn nnn) s k b := by
  by_cases hs : s.sp.val < 16
  · refine ⟨_, k.set s.sp.val s.pc hs, execCallNnn_push nnn s hs,
      execCallNnn_push nnn ((s.setStack k).setSt b) hs, fun j hj => ?_, fun hks => by rw [hks]; rfl, rfl⟩
    change j.val < s.sp.val + 1 at hj
    change (k.set s.sp.val s.pc hs)[j.val] = (s.stack.set s.sp.val s.pc hs)[j.val]
    rw [Vector.getElem_set, Vector.getElem_set]
    split
    · rfl
    · exact hk j (by omega)
  · have h16 : s.sp.val = 16 := by omega
    exact unobserved_of_stack_eq hk (execCallNnn_overflow nnn s h16)
      (execCallNnn_overflow nnn ((s.setStack k).setSt b) h16) rfl le_rfl rfl

theorem unobserved_ldVxK (hk : AgreesBelowSp s k) (x : Nibble) (b : Byte) : Unobserved (.ldVxK x) s k b := by
  cases hr : s.kRel with
  | false =>
    exact unobserved_of_stack_eq hk (execLdVxK_wait x s hr) (execLdVxK_wait x ((s.setStack k).setSt b) hr)
      rfl le_rfl rfl
  | true =>
    exact unobserved_of_stack_eq hk (execLdVxK_deliver x s hr) (execLdVxK_deliver x ((s.setStack k).setSt b) hr)
      rfl le_rfl rfl

/-- Every instruction but `FX18`, which writes `ST`. -/
theorem unobserved_of_ne_ldStVx (hk : AgreesBelowSp s k) (b : Byte) (hi : ∀ x, i ≠ .ldStVx x) :
    Unobserved i s k b := by
  cases i with
  | ldStVx x => exact absurd rfl (hi x)
  | ret => exact unobserved_ret hk b
  | callNnn nnn => exact unobserved_callNnn hk nnn b
  | ldVxK x => exact unobserved_ldVxK hk x b
  | seVxNn | sneVxNn | seVxVy | sneVxVy | skpVx | sknpVx => exact unobserved_skip hk b rfl rfl
  | _ => exact unobserved_of_stack_eq hk rfl rfl rfl le_rfl rfl

end

/-- Settles O37: the case of an unchanged `ST`. -/
theorem poppedSlotsAreUnobservable : Obligations.PoppedSlotsAreUnobservable := by
  intro i s k hk
  by_cases hi : ∃ x, i = .ldStVx x
  · obtain ⟨x, rfl⟩ := hi
    exact ⟨_, _, rfl, rfl, rfl, hk⟩
  · obtain ⟨t, k', ht, hu, hk', -, hst⟩ := unobserved_of_ne_ldStVx hk s.st (not_exists.1 hi)
    exact ⟨t, (t.setStack k').setSt s.st, ht, hu, by rw [← hst]; rfl, hk'⟩

/-- Settles O45: the case of an unchanged stack. -/
theorem noInstructionReadsSoundTimer : Obligations.NoInstructionReadsSoundTimer := by
  intro i s b
  by_cases hi : ∃ x, i = .ldStVx x
  · obtain ⟨x, rfl⟩ := hi
    exact ⟨_, _, rfl, rfl, fun _ => rfl, fun hx => absurd rfl (hx x)⟩
  · obtain ⟨t, k', ht, hu, -, hkk, -⟩ :=
      unobserved_of_ne_ldStVx (s := s) (k := s.stack) (fun _ _ => rfl) b (not_exists.1 hi)
    rw [hkk rfl] at hu
    exact ⟨t, t.setSt b, ht, hu, fun hx => absurd hx hi, fun _ => rfl⟩

end Sys2Proof.Machine
end

section
/-! SUPPORT. The statement of 20_memory.md about self-modifying code: what `FX55` stores, the next fetch sees. -/

namespace Sys2Proof.Machine

/-- Below the last byte of memory the bus address of the next offset is the next address. -/
theorem ea_indexed_succ {base : Word} {k : Nat} (h : ea (indexed base k) ≤ 0x0FFE) :
    ea (indexed base (k + 1)) = ea (indexed base k) + 1 := by
  rw [ea_indexed] at h
  rw [ea_indexed, ea_indexed]
  omega

/-- Each byte that `FX55` stores reads back as the register it came from (43_index_memory.md R135). -/
theorem mem_read_of_exec_ldMiVx {s t : State} {x : Nibble} (h : exec (.ldMiVx x) s = .next t) (hm : s.mem.wf)
    {k : Nat} (hk : k ≤ x.toNat) : t.mem.read (ea (indexed s.i k)) = s.readV (blockReg k) := by
  cases h
  have hx : x.toNat < 16 := x.isLt
  have hinside := Memory.read_storeFrom_inside hm s.i 0 (s.blockRegs (x.toNat + 1))
    (by rw [State.blockRegs_length]; omega) k (by rw [State.blockRegs_length]; omega)
  rwa [Nat.zero_add, State.blockRegs_getElem] at hinside

/-- With no event waiting, a step runs the decoded instruction after the advance (40_instruction_cycle.md R93,
R95). -/
theorem step_of_decode_fetchWord {s : State} {i : Instr} (hin : s.inputs = []) (hr : s.hasReset = true)
    (hpc : s.pc.toNat ≤ 0x0FFE) (hd : decode s.fetchWord = .ok i) : step s = exec i s.advance := by
  rw [step_nil s hin hr, cycle_inRange s hpc, dispatch_ok hd]

/-- Settles O14: the two bytes read back as stored, so the fetch of a state with that memory is the word they make. -/
theorem storedBytesAreFetched : Obligations.StoredBytesAreFetched := by
  intro s t x k hm hk h hea
  have hhi : t.mem.read (ea (indexed s.i k)) = s.readV (blockReg k) := mem_read_of_exec_ldMiVx h hm (by omega)
  have hlo : t.mem.read (ea (indexed s.i k) + 1) = s.readV (blockReg (k + 1)) := by
    rw [← ea_indexed_succ hea]
    exact mem_read_of_exec_ldMiVx h hm hk
  refine ⟨⟨hhi, hlo⟩, fun u hmem hin hr hpc i hd => ?_⟩
  have hfetch : u.fetchWord = wordOfBytes (s.readV (blockReg k)) (s.readV (blockReg (k + 1))) := by
    rw [State.fetchWord, hmem, hpc, hhi, hlo]
  exact step_of_decode_fetchWord hin hr (by omega) (hfetch ▸ hd)

end Sys2Proof.Machine
end

section
/-! SUPPORT. The statements of 30_encoding.md: the decoder and the encoder are inverse to each other, the words that
decode are those of the opcode map, and the others are the invalid words, family by family. -/

namespace Sys2Proof

/-! What the decoder does in the families that look at more than `OP` (30_encoding.md R76). -/

theorem decode_of_op_0 {w : Word} (h : fieldOp w = 0x0) : decode w = decode0 w := by
  simp [decode, h]

theorem decode_of_op_5 {w : Word} (h : fieldOp w = 0x5) : decode w =
    if fieldN w = 0 then .ok (.seVxVy (fieldX w) (fieldY w)) else .error .invalid5 := by
  simp [decode, h]

theorem decode_of_op_8 {w : Word} (h : fieldOp w = 0x8) :
    decode w = decode8 (fieldX w) (fieldY w) (fieldN w) := by
  simp [decode, h]

theorem decode_of_op_9 {w : Word} (h : fieldOp w = 0x9) : decode w =
    if fieldN w = 0 then .ok (.sneVxVy (fieldX w) (fieldY w)) else .error .invalid9 := by
  simp [decode, h]

theorem decode_of_op_E {w : Word} (h : fieldOp w = 0xE) : decode w = decodeE (fieldX w) (fieldNN w) := by
  simp [decode, h]

theorem decode_of_op_F {w : Word} (h : fieldOp w = 0xF) : decode w = decodeF (fieldX w) (fieldNN w) := by
  simp [decode, h]

/-! From an instruction to its word and back. -/

theorem decode_wordXYN_8 (x y f : Nibble) : decode (wordXYN 0x8 x y f) = decode8 x y f := by
  simp [decode_of_op_8]

theorem decode_wordXNN_E (x : Nibble) (f : Byte) : decode (wordXNN 0xE x f) = decodeE x f := by
  simp [decode_of_op_E]

theorem decode_wordXNN_F (x : Nibble) (f : Byte) : decode (wordXNN 0xF x f) = decodeF x f := by
  simp [decode_of_op_F]

/-- By the format: the fields of a word built from operands are those operands. -/
theorem decode_encode (i : Instr) : decode (encode i) = .ok i := by
  cases i with
  | cls | ret => rfl
  | jpNnn | callNnn | ldINnn | jpV0Nnn | seVxNn | sneVxNn | ldVxNn | addVxNn | rndVxNn | drwVxVyN =>
    simp [encode, decode]
  | seVxVy => simp [encode, decode_of_op_5]
  | sneVxVy => simp [encode, decode_of_op_9]
  | ldVxVy | orVxVy | andVxVy | xorVxVy | addVxVy | subVxVy | shrVxVy | subnVxVy | shlVxVy =>
    exact decode_wordXYN_8 _ _ _
  | skpVx | sknpVx => exact decode_wordXNN_E _ _
  | ldVxDt | ldVxK | ldDtVx | ldStVx | addIVx | ldFVx | ldBVx | ldMiVx | ldVxMi => exact decode_wordXNN_F _ _

theorem decodeBytes_encodeBytes_append (i : Instr) (rest : List Byte) :
    decodeBytes (encodeBytes i ++ rest) = .ok (i, rest) := by
  simp [encodeBytes, decodeBytes, decode_encode, Except.map]

/-- Settles O1: the decoder reads back the word, and the two bytes make that word. -/
theorem decodeOfEncodeIsTheInstruction : Obligations.DecodeOfEncodeIsTheInstruction :=
  fun i rest => ⟨decode_encode i, decodeBytes_encodeBytes_append i rest⟩

/-! From a word to its instruction and back, and the words that each family rejects (30_encoding.md R78). -/

/-- The words that are no instruction, each with the name of its family (30_encoding.md R78); a word is never too
short. -/
def InvalidWord (w : Word) : DecodeError → Prop
  | .invalid0 => fieldOp w = 0x0 ∧ w ≠ 0x00E0 ∧ w ≠ 0x00EE
  | .invalid5 => fieldOp w = 0x5 ∧ fieldN w ≠ 0
  | .invalid8 => fieldOp w = 0x8 ∧ 8 ≤ (fieldN w).toNat ∧ fieldN w ≠ 0xE
  | .invalid9 => fieldOp w = 0x9 ∧ fieldN w ≠ 0
  | .invalidE => fieldOp w = 0xE ∧ fieldNN w ≠ 0x9E ∧ fieldNN w ≠ 0xA1
  | .invalidF => fieldOp w = 0xF ∧
      fieldNN w ∉ ([0x07, 0x0A, 0x15, 0x18, 0x1E, 0x29, 0x33, 0x55, 0x65] : List Byte)
  | .truncated => False

/-- A right answer to the word `w`: the instruction that `w` encodes, or the family that `w` is invalid in. -/
inductive RightAnswer (w : Word) : Except DecodeError Instr → Prop
  | ok {i : Instr} (h : encode i = w) : RightAnswer w (.ok i)
  | error {e : DecodeError} (h : InvalidWord w e) : RightAnswer w (.error e)

section
variable {w : Word} {op n : Nibble} {nn : Byte}

theorem wordNNN_of_fields (hop : fieldOp w = op) : wordNNN op (fieldNNN w) = w := by
  rw [← hop, wordNNN_fields]

theorem wordXNN_of_fields (hop : fieldOp w = op) (hnn : fieldNN w = nn) : wordXNN op (fieldX w) nn = w := by
  rw [← hop, ← hnn, wordXNN_fields]

theorem wordXYN_of_fields (hop : fieldOp w = op) (hn : fieldN w = n) :
    wordXYN op (fieldX w) (fieldY w) n = w := by
  rw [← hop, ← hn, wordXYN_fields]

theorem decode0_rightAnswer (hop : fieldOp w = 0x0) : RightAnswer w (decode0 w) := by
  unfold decode0
  split
  · exact .ok (Eq.symm ‹_›)
  · split
    · exact .ok (Eq.symm ‹_›)
    · exact .error ⟨hop, ‹_›, ‹_›⟩

theorem decode8_rightAnswer (hop : fieldOp w = 0x8) :
    RightAnswer w (decode8 (fieldX w) (fieldY w) (fieldN w)) := by
  unfold decode8
  split
  case h_10 =>
    simp only [imp_false] at *
    exact .error ⟨hop, by bv_omega, ‹_›⟩
  all_goals exact .ok (wordXYN_of_fields hop ‹_›)

theorem decodeE_rightAnswer (hop : fieldOp w = 0xE) : RightAnswer w (decodeE (fieldX w) (fieldNN w)) := by
  unfold decodeE
  split
  case h_3 => exact .error ⟨hop, ‹_›, ‹_›⟩
  all_goals exact .ok (wordXNN_of_fields hop ‹_›)

theorem decodeF_rightAnswer (hop : fieldOp w = 0xF) : RightAnswer w (decodeF (fieldX w) (fieldNN w)) := by
  unfold decodeF
  split
  case h_10 => exact .error ⟨hop, by simp_all⟩
  all_goals exact .ok (wordXNN_of_fields hop ‹_›)

/-- Families `5XYN` and `9XYN`: one instruction, its last digit 0. -/
theorem xy0_rightAnswer {i : Instr} {e : DecodeError} (hi : fieldN w = 0 → encode i = w)
    (he : fieldN w ≠ 0 → InvalidWord w e) : RightAnswer w (if fieldN w = 0 then .ok i else .error e) := by
  split
  · exact .ok (hi ‹_›)
  · exact .error (he ‹_›)

end

/-- The decoder answers every word rightly, by the value of `OP`. -/
theorem decode_rightAnswer (w : Word) : RightAnswer w (decode w) := by
  unfold decode
  split
  case h_1 hop => exact decode0_rightAnswer hop
  case h_6 hop => exact xy0_rightAnswer (wordXYN_of_fields hop) (fun hn => ⟨hop, hn⟩)
  case h_9 hop => exact decode8_rightAnswer hop
  case h_10 hop => exact xy0_rightAnswer (wordXYN_of_fields hop) (fun hn => ⟨hop, hn⟩)
  case h_15 hop => exact decodeE_rightAnswer hop
  case h_16 =>
    simp only [imp_false] at *
    exact decodeF_rightAnswer (by bv_omega)
  case h_2 hop | h_3 hop | h_11 hop | h_12 hop => exact .ok (wordNNN_of_fields hop)
  case h_14 hop => exact .ok (wordXYN_of_fields hop rfl)
  all_goals exact .ok (wordXNN_of_fields ‹_› rfl)

theorem encode_of_decode {w : Word} {i : Instr} (h : decode w = .ok i) : encode i = w := by
  cases h ▸ decode_rightAnswer w with
  | ok hi => exact hi

/-- Settles O2: a right answer that is an instruction is the one the word encodes. -/
theorem encodeOfDecodeIsTheWord : Obligations.EncodeOfDecodeIsTheWord :=
  fun _ _ => encode_of_decode

theorem invalidWord_of_decode {w : Word} {e : DecodeError} (h : decode w = .error e) : InvalidWord w e := by
  cases h ▸ decode_rightAnswer w with
  | error he => exact he

theorem decode0_invalid {w : Word} (hE0 : w ≠ 0x00E0) (hEE : w ≠ 0x00EE) : decode0 w = .error .invalid0 := by
  rw [decode0, if_neg hE0, if_neg hEE]

theorem decode8_invalid (x y : Nibble) {f : Nibble} (h8 : 8 ≤ f.toNat) (hE : f ≠ 0xE) :
    decode8 x y f = .error .invalid8 := by
  unfold decode8
  split
  case h_10 => rfl
  case h_9 => exact absurd rfl hE
  all_goals exact absurd h8 (by decide)

theorem decodeE_invalid (x : Nibble) {f : Byte} (h9E : f ≠ 0x9E) (hA1 : f ≠ 0xA1) :
    decodeE x f = .error .invalidE := by
  unfold decodeE
  split
  case h_1 => exact absurd rfl h9E
  case h_2 => exact absurd rfl hA1
  case h_3 => rfl

theorem decodeF_invalid (x : Nibble) {f : Byte}
    (h : f ∉ ([0x07, 0x0A, 0x15, 0x18, 0x1E, 0x29, 0x33, 0x55, 0x65] : List Byte)) :
    decodeF x f = .error .invalidF := by
  unfold decodeF
  split
  case h_10 => rfl
  all_goals exact absurd (by decide) h

theorem decode_of_invalidWord {w : Word} {e : DecodeError} (h : InvalidWord w e) : decode w = .error e := by
  cases e with
  | invalid0 =>
    obtain ⟨hop, hE0, hEE⟩ := h
    rw [decode_of_op_0 hop, decode0_invalid hE0 hEE]
  | invalid5 =>
    obtain ⟨hop, hn⟩ := h
    rw [decode_of_op_5 hop, if_neg hn]
  | invalid8 =>
    obtain ⟨hop, h8, hE⟩ := h
    rw [decode_of_op_8 hop, decode8_invalid _ _ h8 hE]
  | invalid9 =>
    obtain ⟨hop, hn⟩ := h
    rw [decode_of_op_9 hop, if_neg hn]
  | invalidE =>
    obtain ⟨hop, h9E, hA1⟩ := h
    rw [decode_of_op_E hop, decodeE_invalid _ h9E hA1]
  | invalidF =>
    obtain ⟨hop, hnn⟩ := h
    rw [decode_of_op_F hop, decodeF_invalid _ hnn]
  | truncated => exact h.elim

theorem decode_eq_error_iff (w : Word) (e : DecodeError) : decode w = .error e ↔ InvalidWord w e :=
  ⟨invalidWord_of_decode, decode_of_invalidWord⟩

/-- Settles O4: each clause is one family of the invalid words. -/
theorem decoderRejectsExactlyTheInvalidFamilies : Obligations.DecoderRejectsExactlyTheInvalidFamilies :=
  fun w => ⟨decode_eq_error_iff w .invalid0, decode_eq_error_iff w .invalid5, decode_eq_error_iff w .invalid8,
    decode_eq_error_iff w .invalid9, decode_eq_error_iff w .invalidE, decode_eq_error_iff w .invalidF,
    (decode_eq_error_iff w .truncated).1⟩

/-! The rows of the opcode map (30_encoding.md R75). -/

open Laws in
/-- The word of every instruction lies in the instruction's own row. -/
theorem encode_in_row : ∀ i : Instr, EncodesItsRow.Statement i
  | .cls => EncodesItsRow.cls
  | .ret => EncodesItsRow.ret
  | .jpNnn nnn => EncodesItsRow.jpNnn nnn
  | .callNnn nnn => EncodesItsRow.callNnn nnn
  | .seVxNn x nn => EncodesItsRow.seVxNn x nn
  | .sneVxNn x nn => EncodesItsRow.sneVxNn x nn
  | .seVxVy x y => EncodesItsRow.seVxVy x y
  | .ldVxNn x nn => EncodesItsRow.ldVxNn x nn
  | .addVxNn x nn => EncodesItsRow.addVxNn x nn
  | .ldVxVy x y => EncodesItsRow.ldVxVy x y
  | .orVxVy x y => EncodesItsRow.orVxVy x y
  | .andVxVy x y => EncodesItsRow.andVxVy x y
  | .xorVxVy x y => EncodesItsRow.xorVxVy x y
  | .addVxVy x y => EncodesItsRow.addVxVy x y
  | .subVxVy x y => EncodesItsRow.subVxVy x y
  | .shrVxVy x y => EncodesItsRow.shrVxVy x y
  | .subnVxVy x y => EncodesItsRow.subnVxVy x y
  | .shlVxVy x y => EncodesItsRow.shlVxVy x y
  | .sneVxVy x y => EncodesItsRow.sneVxVy x y
  | .ldINnn nnn => EncodesItsRow.ldINnn nnn
  | .jpV0Nnn nnn => EncodesItsRow.jpV0Nnn nnn
  | .rndVxNn x nn => EncodesItsRow.rndVxNn x nn
  | .drwVxVyN x y n => EncodesItsRow.drwVxVyN x y n
  | .skpVx x => EncodesItsRow.skpVx x
  | .sknpVx x => EncodesItsRow.sknpVx x
  | .ldVxDt x => EncodesItsRow.ldVxDt x
  | .ldVxK x => EncodesItsRow.ldVxK x
  | .ldDtVx x => EncodesItsRow.ldDtVx x
  | .ldStVx x => EncodesItsRow.ldStVx x
  | .addIVx x => EncodesItsRow.addIVx x
  | .ldFVx x => EncodesItsRow.ldFVx x
  | .ldBVx x => EncodesItsRow.ldBVx x
  | .ldMiVx x => EncodesItsRow.ldMiVx x
  | .ldVxMi x => EncodesItsRow.ldVxMi x

theorem mem_own_row_of_decode {w : Word} {i : Instr} (h : decode w = .ok i) :
    i.row ∈ opcodeMap ∧ w &&& i.row.mask = i.row.pattern := by
  obtain ⟨hmem, hcov⟩ := encode_in_row i
  rw [encode_of_decode h, OpcodeRow.covers, beq_iff_eq] at hcov
  exact ⟨hmem, hcov⟩

/-- Two rows that agree where both are fixed are one row. -/
theorem opcodeMap_disjoint : ∀ r ∈ opcodeMap, ∀ q ∈ opcodeMap,
    r.pattern &&& q.mask = q.pattern &&& r.mask → r = q := by
  decide

theorem row_unique {w : Word} {r q : OpcodeRow} (hr : r ∈ opcodeMap) (hq : q ∈ opcodeMap)
    (hwr : w &&& r.mask = r.pattern) (hwq : w &&& q.mask = q.pattern) : r = q := by
  apply opcodeMap_disjoint r hr q hq
  rw [← hwr, ← hwq, BitVec.and_assoc, BitVec.and_assoc, BitVec.and_comm r.mask]

theorem pattern_decodes : ∀ r ∈ opcodeMap, (decode r.pattern).isOk = true := by
  decide

/-! Which digits a row fixes: `OP` always, and in the families with an invalid word the digits that tell it. -/

theorem row_fixes_op : ∀ r ∈ opcodeMap, fieldOp r.mask = 0xF := by
  decide

theorem row_fixes_all : ∀ r ∈ opcodeMap, fieldOp r.pattern = 0x0 → r.mask = 0xFFFF := by
  decide

theorem row_fixes_n : ∀ r ∈ opcodeMap,
    fieldOp r.pattern = 0x5 ∨ fieldOp r.pattern = 0x8 ∨ fieldOp r.pattern = 0x9 → fieldN r.mask = 0xF := by
  decide

theorem row_fixes_nn : ∀ r ∈ opcodeMap,
    fieldOp r.pattern = 0xE ∨ fieldOp r.pattern = 0xF → fieldNN r.mask = 0xFF := by
  decide

section
variable {w m p : Word}

theorem extractLsb'_of_fixed {lo n : Nat} (hm : m.extractLsb' lo n = BitVec.allOnes n) (h : w &&& m = p) :
    p.extractLsb' lo n = w.extractLsb' lo n := by
  rw [← h, BitVec.extractLsb'_and, hm, BitVec.and_allOnes]

theorem fieldOp_of_fixed (hm : fieldOp m = 0xF) (h : w &&& m = p) : fieldOp p = fieldOp w :=
  extractLsb'_of_fixed hm h

theorem fieldN_of_fixed (hm : fieldN m = 0xF) (h : w &&& m = p) : fieldN p = fieldN w :=
  extractLsb'_of_fixed hm h

theorem fieldNN_of_fixed (hm : fieldNN m = 0xFF) (h : w &&& m = p) : fieldNN p = fieldNN w :=
  extractLsb'_of_fixed hm h

end

/-- Every digit that makes a word invalid is one that its row would fix. -/
theorem invalidWord_pattern {w : Word} {r : OpcodeRow} {e : DecodeError} (hr : r ∈ opcodeMap)
    (hw : w &&& r.mask = r.pattern) (h : InvalidWord w e) : InvalidWord r.pattern e := by
  have hop := fieldOp_of_fixed (row_fixes_op r hr) hw
  cases e with
  | invalid0 =>
    have hall := row_fixes_all r hr (hop.trans h.1)
    have hpat : r.pattern = w := by
      rw [← hw, hall]
      exact BitVec.and_allOnes
    exact hpat ▸ h
  | invalid5 =>
    have hn := fieldN_of_fixed (row_fixes_n r hr (.inl (hop.trans h.1))) hw
    rwa [InvalidWord, hop, hn]
  | invalid8 =>
    have hn := fieldN_of_fixed (row_fixes_n r hr (.inr (.inl (hop.trans h.1)))) hw
    rwa [InvalidWord, hop, hn]
  | invalid9 =>
    have hn := fieldN_of_fixed (row_fixes_n r hr (.inr (.inr (hop.trans h.1)))) hw
    rwa [InvalidWord, hop, hn]
  | invalidE =>
    have hnn := fieldNN_of_fixed (row_fixes_nn r hr (.inl (hop.trans h.1))) hw
    rwa [InvalidWord, hop, hnn]
  | invalidF =>
    have hnn := fieldNN_of_fixed (row_fixes_nn r hr (.inr (hop.trans h.1))) hw
    rwa [InvalidWord, hop, hnn]
  | truncated => exact h

/-- A word in a row decodes, because an invalid word would make the row's pattern invalid too. -/
theorem decodes_of_mem_row {w : Word} {r : OpcodeRow} (hr : r ∈ opcodeMap) (hw : w &&& r.mask = r.pattern) :
    ∃ i, decode w = .ok i := by
  cases hd : decode w with
  | ok i => exact ⟨i, rfl⟩
  | error e =>
    have hpat : decode r.pattern = .error e :=
      decode_of_invalidWord (invalidWord_pattern hr hw (invalidWord_of_decode hd))
    have hok := pattern_decodes r hr
    rw [hpat] at hok
    cases hok

/-- Settles O3: an instruction's word lies in its own row, a word in a row is not invalid, and the rows are disjoint. -/
theorem decoderAcceptsExactlyTheOpcodeMap : Obligations.DecoderAcceptsExactlyTheOpcodeMap :=
  ⟨rfl, fun _ => ⟨⟨fun ⟨i, hi⟩ => ⟨i.row, mem_own_row_of_decode hi⟩, fun ⟨_, hr, hw⟩ => decodes_of_mem_row hr hw⟩,
    fun _ => mem_own_row_of_decode, fun _ hr _ hq => row_unique hr hq⟩⟩

/-- Settles O5: the ten words are closed terms. -/
theorem sampleWordsDecodeAsWritten : Obligations.SampleWordsDecodeAsWritten := by
  unfold Obligations.SampleWordsDecodeAsWritten
  decide

end Sys2Proof
end

section
/-! SUPPORT. The statements of 40_instruction_cycle.md: a step runs the one decoded instruction or reports an invalid
word or a `PC` out of range, every instruction completes, and who reports. -/

namespace Sys2Proof.Machine

/-! Who reports (R97). -/

/-- The other 32 instructions update fields, and the report history is none of them. -/
theorem exec_keeps_reports {i : Instr} {s t : State} (h : exec i s = .next t) (hcall : ∀ nnn, i ≠ .callNnn nnn)
    (hret : i ≠ .ret) : t.reports = s.reports := by
  cases i with
  | ret => exact absurd rfl hret
  | callNnn nnn => exact absurd rfl (hcall nnn)
  | ldVxK x =>
    obtain ⟨-, rfl⟩ | ⟨-, rfl⟩ := execLdVxK_cases h <;> rfl
  | seVxNn | sneVxNn | seVxVy | sneVxVy | skpVx | sknpVx =>
    cases h
    exact State.skipIf_reports s _
  | _ =>
    cases h
    rfl

/-- Settles O9: a call and a return report only when they find no slot to push to or to pop. -/
theorem onlyCallAndReturnReport : Obligations.OnlyCallAndReturnReport := by
  intro i s t h
  by_cases hret : i = .ret
  · subst hret
    obtain ⟨-, rfl⟩ | ⟨hs, rfl⟩ := execRet_cases h
    · exact .inl rfl
    · exact .inr (.inr ⟨rfl, hs, rfl⟩)
  by_cases hcall : ∃ nnn, i = .callNnn nnn
  · obtain ⟨nnn, rfl⟩ := hcall
    obtain ⟨-, rfl⟩ | ⟨hs, rfl⟩ := execCallNnn_cases h
    · exact .inl rfl
    · exact .inr (.inl ⟨nnn, rfl, hs, rfl⟩)
  · exact .inl (exec_keeps_reports h (not_exists.1 hcall) hret)

/-- From `s` to `t` the report output carried nothing or one report. -/
def AtMostOneReport (s t : State) : Prop := t.reports = s.reports ∨ ∃ r, t.reports = r :: s.reports

theorem exec_atMostOneReport {i : Instr} {s t : State} (h : exec i s = .next t) : AtMostOneReport s t := by
  obtain hkeep | ⟨_, -, -, hcall⟩ | ⟨-, -, hret⟩ := onlyCallAndReturnReport i s t h
  · exact .inl hkeep
  · exact .inr ⟨_, hcall⟩
  · exact .inr ⟨_, hret⟩

/-- A cycle that reports by itself runs no instruction, so its report is the only one. -/
theorem cycle_atMostOneReport {s t : State} (h : cycle s = .next t) : AtMostOneReport s t := by
  obtain ⟨-, i, -, hc⟩ | ⟨-, e, -, hc⟩ | ⟨-, hc⟩ := cycle_cases s
  · exact exec_atMostOneReport (s := s.advance) (hc.symm.trans h)
  · cases hc.symm.trans h
    exact .inr ⟨_, rfl⟩
  · cases hc.symm.trans h
    exact .inr ⟨_, rfl⟩

theorem advanceTime_reports (s : State) (d : Rat) : (s.advanceTime d).reports = s.reports := by
  obtain ⟨dt, st, hticks, -, -⟩ := ticks_eq (wholeTicks (s.acc + d)) s
  rw [State.advanceTime, hticks]
  rfl

/-- Only a Step event reports (60_exceptions.md R169). -/
theorem deliver_keeps_reports {e : Event} {s t : State} (h : deliver e s = .next t) (he : e ≠ .step) :
    t.reports = s.reports := by
  rcases deliver_cases e s with ⟨hstep, -, -⟩ | ⟨-, hc⟩ | ⟨img, -, -, -, hc⟩ | ⟨-, -, hc⟩ | ⟨d, -, -, -, hc⟩ |
    ⟨k, -, hc⟩ | ⟨k, -, hc⟩ | ⟨-, hc⟩ | ⟨img, -, -, -, hc⟩ | ⟨d, -, -, -, hc⟩
  case inl => exact absurd hstep he
  all_goals cases hc.symm.trans h
  · rfl
  · exact State.store_reports s _ img
  · rfl
  · exact advanceTime_reports s d
  · rfl
  · rfl

theorem stepEvent_atMostOneReport {s t : State} (h : stepEvent s = .next t) : AtMostOneReport s t := by
  cases hr : s.hasReset with
  | false => cases (afterReset_false hr (cycle s)).symm.trans h
  | true => exact cycle_atMostOneReport ((afterReset_true hr (cycle s)).symm.trans h)

/-- Settles O10: of the events that a step can deliver, only the Step event runs a cycle. -/
theorem atMostOneReportInAStep : Obligations.AtMostOneReportInAStep := by
  intro s t h
  cases hin : s.inputs with
  | nil =>
    rw [step, hin] at h
    exact ⟨stepEvent_atMostOneReport h, fun _ _ hcons => nomatch hcons⟩
  | cons e rest =>
    rw [step_cons s e rest hin] at h
    have hother : e ≠ .step → t.reports = s.reports := deliver_keeps_reports (s := s.setInputs rest) h
    refine ⟨?_, fun e' rest' hcons he => ?_⟩
    · by_cases he : e = .step
      · subst he
        exact stepEvent_atMostOneReport (s := s.setInputs rest) h
      · exact .inl (hother he)
    · cases hcons
      exact hother he

/-! A `PC` out of range is for ever (R91). -/

theorem step_outOfRange {s : State} (hin : s.inputs = []) (hr : s.hasReset = true) (hpc : 0x0FFE < s.pc.toNat) :
    step s = .next (s.emit (.pcOutOfRange s.pc)) := by
  rw [step_nil s hin hr, cycle_outOfRange s hpc]

theorem run_outOfRange (n : Nat) {s : State} (hin : s.inputs = []) (hr : s.hasReset = true)
    (hpc : 0x0FFE < s.pc.toNat) : Host.Core.run Sys2Proof.core n s =
      .next (s.setReports (List.replicate n (.pcOutOfRange s.pc) ++ s.reports)) := by
  induction n generalizing s with
  | zero => rfl
  | succ n ih =>
    have hrest := ih (s := s.emit (.pcOutOfRange s.pc)) hin hr hpc
    rw [run_succ n (step_outOfRange hin hr hpc), hrest, List.replicate_succ', List.append_assoc]
    rfl

/-- Settles O8: the report leaves `PC` where it was, by induction on the number of steps. -/
theorem pcOutOfRangeOnlyReportsForEver : Obligations.PcOutOfRangeOnlyReportsForEver :=
  fun _ n hin hr hpc => ⟨run_outOfRange n hin hr hpc, rfl⟩

/-! The fetched word is run, or reported as invalid (R92 to R96). -/

/-- The fetch is big-endian (20_memory.md R52). -/
theorem fetchWord_eq {s : State} {ir : Word}
    (h : ir.toNat = 256 * (s.mem.read s.pc.toNat).toNat + (s.mem.read (s.pc.toNat + 1)).toNat) :
    s.fetchWord = ir := by
  apply BitVec.eq_of_toNat_eq
  rw [State.fetchWord, wordOfBytes_toNat, h, Nat.mul_comm]

theorem step_of_decode_fetchWord_error {s : State} {e : DecodeError} (hin : s.inputs = []) (hr : s.hasReset = true)
    (hpc : s.pc.toNat ≤ 0x0FFE) (hd : decode s.fetchWord = .error e) :
    step s = .next (s.advance.emit (.invalidOpcode s.fetchWord s.pc)) := by
  rw [step_nil s hin hr, cycle_inRange s hpc, dispatch_error hd]

/-- Settles O6: the word of the two bytes is the fetched one. -/
theorem stepRunsTheDecodedInstruction : Obligations.StepRunsTheDecodedInstruction := by
  intro s ir i hin hr hpc hir hd
  obtain rfl := fetchWord_eq hir
  exact step_of_decode_fetchWord hin hr hpc hd

/-- Settles O7: the word of the two bytes is the fetched one. -/
theorem invalidWordIsAReportedNoOperation : Obligations.InvalidWordIsAReportedNoOperation := by
  intro s ir e hin hr hpc hir hd
  obtain rfl := fetchWord_eq hir
  exact ⟨step_of_decode_fetchWord_error hin hr hpc hd, rfl⟩

/-! Every instruction completes (R95). -/

/-- Settles O12: the three meanings that branch have a next state on either branch, the others do not branch. -/
theorem everyInstructionCompletes : Obligations.EveryInstructionCompletes := by
  intro i s
  cases i with
  | ret =>
    obtain h0 | hpos := Nat.eq_zero_or_pos s.sp.val
    · exact ⟨_, execRet_underflow s h0⟩
    · exact ⟨_, execRet_pop s hpos⟩
  | callNnn nnn =>
    by_cases hs : s.sp.val < 16
    · exact ⟨_, execCallNnn_push nnn s hs⟩
    · exact ⟨_, execCallNnn_overflow nnn s (by omega)⟩
  | ldVxK x =>
    cases hk : s.kRel with
    | false => exact ⟨_, execLdVxK_wait x s hk⟩
    | true => exact ⟨_, execLdVxK_deliver x s hk⟩
  | _ => exact ⟨_, rfl⟩

end Sys2Proof.Machine
end

section
/-! SUPPORT. The statements of 41_control_flow.md: the call and the return as one slot pushed and popped, the jumps, and
the skips that compare registers. -/

namespace Sys2Proof.Machine

/-! The call and the return, by the slot they push to or pop (R101, R103). -/

section
variable {s : State} {a : Word} {j : Fin 16}

theorem execRet_of_sp_succ (hs : s.sp = j.succ) :
    execRet s = .next ((s.setSp j.castSucc).setPc s.stack[j]) := by
  have hpop := execRet_pop s (hs ▸ j.succ_pos)
  simp only [hs] at hpop
  exact hpop

theorem execCallNnn_of_sp_castSucc (nnn : Addr12) (hs : s.sp = j.castSucc) : execCallNnn nnn s =
    .next (((s.setStack (s.stack.set j.val s.pc j.isLt)).setSp j.succ).setPc (zextAddr nnn)) := by
  have hpush := execCallNnn_push nnn s (hs ▸ j.isLt)
  simp only [hs] at hpush
  exact hpush

/-- `PC - 2` is the address `A` of the instruction (40_instruction_cycle.md R93). -/
theorem pc_sub_two (hpc : s.pc = a + 2) : s.pc - 2 = a := by
  rw [hpc, BitVec.add_sub_cancel]

end

/-- Settles O17: the slot popped is the one below `SP`; with none, the report's address is `PC - 2`. -/
theorem returnPopsOrReportsUnderflow : Obligations.ReturnPopsOrReportsUnderflow := by
  intro s a hpc
  refine ⟨fun j hs => execRet_of_sp_succ hs, fun hs => ⟨?_, rfl⟩⟩
  have hunder := execRet_underflow s (congrArg Fin.val hs)
  rwa [pc_sub_two hpc] at hunder

/-- Settles O18: the slot written is the one at `SP`; with none free, the report's address is `PC - 2`. -/
theorem callPushesOrReportsOverflow : Obligations.CallPushesOrReportsOverflow := by
  intro s a nnn hpc
  refine ⟨fun j hs => ?_, fun hs => ⟨?_, rfl⟩⟩
  · rw [← hpc]
    exact execCallNnn_of_sp_castSucc nnn hs
  · have hover := execCallNnn_overflow nnn s hs
    rwa [pc_sub_two hpc] at hover

/-- Settles O19: the slot that the return pops is the one that the call wrote, and holds the call's `PC`. -/
theorem returnUndoesCall : Obligations.ReturnUndoesCall := by
  intro s nnn hfree
  let j : Fin 16 := ⟨s.sp.val, hfree⟩
  refine ⟨_, execCallNnn_of_sp_castSucc (j := j) nnn rfl, rfl, fun u hsp hstack => ?_⟩
  refine ⟨_, execRet_of_sp_succ (j := j) hsp, ?_, rfl, rfl⟩
  calc
    u.stack[j] = (s.stack.set s.sp.val s.pc hfree)[s.sp.val] := by rw [hstack]; rfl
    _ = s.pc := Vector.getElem_set_self hfree

/-! The jumps (R102, R108). -/

theorem zextAddr_toNat (nnn : Addr12) : (zextAddr nnn).toNat = nnn.toNat :=
  BitVec.toNat_setWidth_of_le (by omega)

theorem zextByte_toNat (b : Byte) : (zextByte b).toNat = b.toNat :=
  BitVec.toNat_setWidth_of_le (by omega)

/-- The target of `BNNN` is the sum itself: it does not reach 65536 (10_state.md R25). -/
theorem jumpV0Target_toNat (nnn : Addr12) (b : Byte) :
    (zextAddr nnn + zextByte b).toNat = nnn.toNat + b.toNat := by
  have hn := nnn.isLt
  have hb := b.isLt
  rw [BitVec.toNat_add, zextAddr_toNat, zextByte_toNat]
  omega

/-- Settles O20: both targets are computed in 16 bits, which hold them. -/
theorem jumpsSetPc : Obligations.JumpsSetPc :=
  fun s nnn => ⟨⟨_, rfl, zextAddr_toNat nnn⟩, ⟨_, rfl, jumpV0Target_toNat nnn (s.readV 0)⟩⟩

/-! The skips that compare registers (R104 to R107). -/

/-- A skip on a test `c` that decides the condition `p` (R100). -/
theorem skipIf_of_iff (s : State) {c : Bool} {p : Prop} [Decidable p] (h : c = true ↔ p) :
    s.skipIf c = { s with pc := if p then s.pc + 2 else s.pc } := by
  rw [State.skipIf_eq, if_congr h rfl rfl]
  rfl

/-- Settles O21: each of the four instructions is a skip, on the Boolean test of its condition. -/
theorem registerSkipsTestEquality : Obligations.RegisterSkipsTestEquality := by
  intro s x y nn
  refine ⟨?_, ?_, ?_, ?_⟩
  · exact congrArg _ (skipIf_of_iff s beq_iff_eq)
  · exact congrArg _ (skipIf_of_iff s bne_iff_ne)
  · exact congrArg _ (skipIf_of_iff s beq_iff_eq)
  · exact congrArg _ (skipIf_of_iff s bne_iff_ne)

end Sys2Proof.Machine
end

section
/-! SUPPORT. The statements of 42_alu.md: the operations that write one register, and those that write a result and
then the flag. -/

namespace Sys2Proof.Machine

/-! What a register holds after the two ways of writing (R112). -/

section
variable {s : State} {x r : Nibble} {b result flag : Byte}

theorem State.readV_writeV_same : (s.writeV x b).readV x = b := by
  rw [State.readV_writeV, if_pos rfl]

theorem State.readV_writeV_of_ne (h : r ≠ x) : (s.writeV x b).readV r = s.readV r := by
  rw [State.readV_writeV, if_neg h.symm]

theorem State.readV_writeResultAndFlag_result (hx : x ≠ 0xF) :
    (s.writeResultAndFlag x result flag).readV x = result := by
  rw [State.readV_writeResultAndFlag, if_neg hx.symm, if_pos rfl]

/-- The flag wins over the result, also for `x = 0xF` (D6). -/
theorem State.readV_writeResultAndFlag_flag : (s.writeResultAndFlag x result flag).readV 0xF = flag := by
  rw [State.readV_writeResultAndFlag, if_pos rfl]

theorem State.readV_writeResultAndFlag_of_ne (hx : r ≠ x) (hF : r ≠ 0xF) :
    (s.writeResultAndFlag x result flag).readV r = s.readV r := by
  rw [State.readV_writeResultAndFlag, if_neg hF.symm, if_neg hx.symm]

end

/-! The flags as numbers. -/

theorem flagByte_decide (p : Prop) [Decidable p] : flagByte (decide p) = if p then 1 else 0 := by
  simp [flagByte]

theorem flagByte_toNat (b : Bool) : (flagByte b).toNat = b.toNat := by
  cases b <;> rfl

theorem shiftedOutRight_toNat (y : Byte) : (shiftedOutRight y).toNat = y.toNat % 2 := by
  rw [shiftedOutRight, flagByte_toNat, BitVec.getLsbD, Nat.toNat_testBit, pow_zero, Nat.div_one]

/-- Bit 7 is all that is left above the low seven bits: `y < 256`. -/
theorem shiftedOutLeft_toNat (y : Byte) : (shiftedOutLeft y).toNat = y.toNat / 128 := by
  rw [shiftedOutLeft, flagByte_toNat, BitVec.getLsbD, Nat.toNat_testBit]
  omega

/-! The operations with a flag (R119 to R123). -/

/-- Settles O26: the carry is a function of the operands from before, and is written after the sum. -/
theorem addSetsTheCarry : Obligations.AddSetsTheCarry := by
  intro s x y
  refine ⟨_, rfl, rfl, fun hx => ?_, ?_, fun _ => State.readV_writeResultAndFlag_of_ne⟩
  · rw [State.readV_writeResultAndFlag_result hx]
    exact BitVec.toNat_add _ _
  · exact State.readV_writeResultAndFlag_flag.trans (flagByte_decide _)

theorem byte_sub_toNat (a b : Byte) : ((a - b).toNat : Int) = (a.toNat - b.toNat : Int) % 256 := by
  rw [BitVec.toNat_sub]
  omega

/-- What an instruction does that subtracts `b` from `a` into `V[x]`, either way round (R120, R122). -/
theorem subtraction_outcome {i : Instr} {s : State} {x : Nibble} {a b : Byte}
    (h : exec i s = .next (s.writeResultAndFlag x (a - b) (noBorrowFlag a b))) :
    ∃ t, exec i s = .next t ∧ t = { s with v := t.v } ∧
      (x ≠ 0xF → ((t.readV x).toNat : Int) = (a.toNat - b.toNat : Int) % 256) ∧
      t.readV 0xF = (if b.toNat ≤ a.toNat then 1 else 0) ∧
      ∀ r, r ≠ x → r ≠ 0xF → t.readV r = s.readV r := by
  refine ⟨_, h, rfl, fun hx => ?_, ?_, fun _ => State.readV_writeResultAndFlag_of_ne⟩
  · rw [State.readV_writeResultAndFlag_result hx]
    exact byte_sub_toNat a b
  · exact State.readV_writeResultAndFlag_flag.trans (flagByte_decide _)

/-- Settles O27: the two instructions are one subtraction with its operands exchanged. -/
theorem subtractionsSetNoBorrow : Obligations.SubtractionsSetNoBorrow :=
  fun _ _ _ => ⟨subtraction_outcome rfl, subtraction_outcome rfl⟩

theorem byte_shiftRight_one_toNat (b : Byte) : (b >>> 1).toNat = b.toNat / 2 := by
  rw [BitVec.toNat_ushiftRight, Nat.shiftRight_eq_div_pow, pow_one]

theorem byte_shiftLeft_one_toNat (b : Byte) : (b <<< 1).toNat = 2 * b.toNat % 256 := by
  rw [BitVec.toNat_shiftLeft, Nat.shiftLeft_eq, pow_one, mul_comm]

/-- Settles O28: the shifted value and the bit out are both taken from the old `V[Y]`. -/
theorem shiftsMoveVyAndKeepTheBitOut : Obligations.ShiftsMoveVyAndKeepTheBitOut := by
  intro s x y
  refine ⟨⟨_, rfl, rfl, fun hx => ?_, ?_, fun _ => State.readV_writeResultAndFlag_of_ne⟩,
    ⟨_, rfl, rfl, fun hx => ?_, ?_, fun _ => State.readV_writeResultAndFlag_of_ne⟩⟩
  · rw [State.readV_writeResultAndFlag_result hx, byte_shiftRight_one_toNat]
  · rw [State.readV_writeResultAndFlag_flag, shiftedOutRight_toNat]
  · rw [State.readV_writeResultAndFlag_result hx, byte_shiftLeft_one_toNat]
  · rw [State.readV_writeResultAndFlag_flag, shiftedOutLeft_toNat]

/-! The operations without a flag (R113 to R118, R124). -/

/-- Settles O29: the byte is the sample that the state's count of draws names, and masking twice is masking once. -/
theorem randomByteIsMasked : Obligations.RandomByteIsMasked := by
  intro s x nn
  refine ⟨_, Config.randomByte s.draws, rfl, rfl, State.readV_writeV_same, ?_, ?_,
    fun _ => State.readV_writeV_of_ne⟩
  · rw [State.readV_writeV_same, BitVec.and_assoc, BitVec.and_self]
  · rw [State.readV_writeV_same, BitVec.toNat_and]
    exact Nat.and_le_right

/-- Settles O24: each of the three ends in one register write. -/
theorem immediateOperationsWriteOneRegister : Obligations.ImmediateOperationsWriteOneRegister := by
  intro s x y nn
  refine ⟨⟨_, rfl, rfl, State.readV_writeV_same, fun _ => State.readV_writeV_of_ne⟩,
    ⟨_, rfl, rfl, ?_, fun _ => State.readV_writeV_of_ne⟩,
    ⟨_, rfl, rfl, State.readV_writeV_same, fun _ => State.readV_writeV_of_ne⟩⟩
  rw [State.readV_writeV_same]
  exact BitVec.toNat_add _ _

/-- Settles O25: each of the three ends in one register write, so `V[0xF]` moves only as the destination. -/
theorem bitwiseOperationsLeaveTheFlag : Obligations.BitwiseOperationsLeaveTheFlag := by
  intro s x y
  refine ⟨⟨_, rfl, rfl, fun _ => State.readV_writeV_of_ne, fun k => ?_⟩,
    ⟨_, rfl, rfl, fun _ => State.readV_writeV_of_ne, fun k => ?_⟩,
    ⟨_, rfl, rfl, fun _ => State.readV_writeV_of_ne, fun k => ?_⟩⟩
  · rw [State.readV_writeV_same, BitVec.getLsbD_or]
  · rw [State.readV_writeV_same, BitVec.getLsbD_and]
  · rw [State.readV_writeV_same, BitVec.getLsbD_xor]

end Sys2Proof.Machine
end

section
/-! SUPPORT. The statements of 43_index_memory.md: what `I` is set to, and the stores and loads through `I`. -/

namespace Sys2Proof.Machine

/-! What memory reads as after a store (R57). -/

section
variable {s : State} {base : Word} {bytes : List Byte}

theorem State.store_read_outside {a : Nat} (h : ∀ k < bytes.length, a ≠ ea (indexed base k)) :
    (s.store base bytes).mem.read a = s.mem.read a :=
  Memory.read_storeFrom_outside s.mem base 0 bytes a (by simpa only [Nat.zero_add] using h)

theorem State.store_read_inside (hm : s.mem.wf) (hlen : bytes.length ≤ 4096) {k : Nat} (hk : k < bytes.length) :
    (s.store base bytes).mem.read (ea (indexed base k)) = bytes[k] := by
  have hread := Memory.read_storeFrom_inside hm base 0 bytes hlen k hk
  rwa [Nat.zero_add] at hread

end

/-! What a block load leaves in the registers. -/

/-- The block moves name every register by its own number. -/
theorem blockReg_of_toNat (r : Nibble) : blockReg r.toNat = r :=
  BitVec.eq_of_toNat_eq (blockReg_toNat r.isLt)

/-- What `FX65` leaves in each register (R136). -/
theorem readV_of_exec_ldVxMi {s t : State} {x : Nibble} (h : exec (.ldVxMi x) s = .next t) (r : Nibble) :
    t.readV r = if r.toNat ≤ x.toNat then s.mem.read (ea (indexed s.i r.toNat)) else s.readV r := by
  cases h
  have hlen : (s.loadBytes s.i (x.toNat + 1)).length ≤ 16 := by
    rw [State.loadBytes_length]
    exact x.isLt
  rw [State.readV_writeRegs s _ hlen]
  simp only [State.loadBytes_length, Nat.lt_succ_iff, State.loadBytes_getElem, dite_eq_ite, State.memRead]

/-! The decimal digits and the glyph addresses as numbers (R133, R134). -/

theorem hundreds_toNat (b : Byte) : (hundreds b).toNat = b.toNat / 100 := by
  rw [hundreds, BitVec.toNat_ofNat]
  omega

theorem tens_toNat (b : Byte) : (tens b).toNat = b.toNat / 10 % 10 := by
  rw [tens, BitVec.toNat_ofNat]
  omega

theorem ones_toNat (b : Byte) : (ones b).toNat = b.toNat % 10 := by
  rw [ones, BitVec.toNat_ofNat]
  omega

/-- The highest glyph address, `432 + 5 * 255`, fits in 16 bits. -/
theorem glyphAddress_toNat (b : Byte) : (glyphAddress b).toNat = Config.fontBase.val + 5 * b.toNat := by
  have hbase := Config.fontBase.isLt
  have hb := b.isLt
  rw [glyphAddress, BitVec.toNat_ofNat, Config.glyphBytes]
  omega

/-! The statements. -/

/-- Settles O32: the instruction is a store of the three digits, so its frame and its bytes are those of the store. -/
theorem decimalStoreWritesThreeDigits : Obligations.DecimalStoreWritesThreeDigits := by
  intro s x
  refine ⟨_, rfl, rfl, fun k _ => ea_indexed s.i k, fun a ha => State.store_read_outside ha,
    fun hm => ⟨?_, ?_, ?_⟩⟩
  · rw [State.store_read_inside hm (by simp) (by simp)]
    exact hundreds_toNat _
  · rw [State.store_read_inside hm (by simp) (by simp)]
    exact tens_toNat _
  · rw [State.store_read_inside hm (by simp) (by simp)]
    exact ones_toNat _

/-- Settles O33: the instruction is a store of `X + 1` registers. -/
theorem blockStoreWritesRegisters : Obligations.BlockStoreWritesRegisters := by
  intro s x
  refine ⟨_, rfl, rfl, fun k _ => ea_indexed s.i k, fun a ha => ?_, fun hm k hk => ?_⟩
  · refine State.store_read_outside fun k hk => ha k ?_
    rw [State.blockRegs_length] at hk
    exact Nat.le_of_lt_succ hk
  · rw [mem_read_of_exec_ldMiVx rfl hm hk, blockReg_of_toNat]

/-- Settles O34: the two clauses are the two cases of the register read after the load. -/
theorem blockLoadReadsRegisters : Obligations.BlockLoadReadsRegisters := by
  intro s x
  refine ⟨_, rfl, rfl, fun r hr => ⟨?_, ea_indexed s.i _⟩, fun r hr => ?_⟩
  · rw [readV_of_exec_ldVxMi rfl, if_pos hr]
  · rw [readV_of_exec_ldVxMi rfl, if_neg hr.not_ge]

/-- Settles O35: the load reads each byte where the store wrote it. -/
theorem blockLoadUndoesBlockStore : Obligations.BlockLoadUndoesBlockStore := by
  intro s t u x hm h hmem hi
  refine ⟨_, rfl, rfl, fun r => ?_⟩
  rw [readV_of_exec_ldVxMi rfl, hmem, hi]
  refine if_ctx_congr Iff.rfl (fun hr => ?_) fun _ => rfl
  rw [mem_read_of_exec_ldMiVx h hm hr, blockReg_of_toNat]

/-- Settles O31: each of the three ends in one update of `I`. -/
theorem indexInstructionsSetI : Obligations.IndexInstructionsSetI := by
  intro s x nnn
  refine ⟨⟨_, rfl, zextAddr_toNat nnn⟩, ⟨_, rfl, ?_⟩, ⟨_, rfl, glyphAddress_toNat _⟩⟩
  rw [BitVec.toNat_add, zextByte_toNat]

end Sys2Proof.Machine
end

section
/-! SUPPORT. The statements of 44_display.md: the sink's two requests by row and column of the frame, and the request
of a `DXYN`. -/

namespace Sys2Proof.Machine

open Sys2Proof.Safety

/-! Pixels by row and column: every position is then in the frame, and clipping (R146) has nothing left to say. -/

theorem Frame.get_val (fb : Frame) (row : Fin 32) (col : Fin 64) : Frame.get fb col.val row.val = fb[row][col] :=
  dif_pos ⟨row.isLt, col.isLt⟩

theorem Frame.ext_pixel {f g : Frame} (h : ∀ (row : Fin 32) (col : Fin 64), f[row][col] = g[row][col]) : f = g :=
  Vector.ext fun y hy => Vector.ext fun x hx => h ⟨y, hy⟩ ⟨x, hx⟩

/-- A frame differs from a blank one exactly when it has a lit pixel. -/
theorem Frame.ne_blank_iff {f g : Frame} (hg : ∀ (row : Fin 32) (col : Fin 64), g[row][col] = false) :
    f ≠ g ↔ ∃ (row : Fin 32) (col : Fin 64), f[row][col] = true := by
  constructor
  · intro hne
    by_contra hdark
    push Not at hdark
    refine hne (Frame.ext_pixel fun row col => ?_)
    rw [hg, Bool.eq_false_iff.2 (hdark row col)]
  · rintro ⟨row, col, hlit⟩ rfl
    rw [hg] at hlit
    cases hlit

/-- Only a pixel of the frame can be lit. -/
theorem Frame.inFrame_of_get {fb : Frame} {x y : Nat} (h : Frame.get fb x y = true) : inFrame x y := by
  by_contra hout
  rw [Frame.get_outside fb hout] at h
  cases h

/-! `draw_sprite` (R142, R147). -/

section
variable (fb : Frame) (x0 y0 : Nat) (rows : List Byte)

theorem drawSprite_pixel (row : Fin 32) (col : Fin 64) : (drawSprite fb x0 y0 rows).1[row][col] =
    (fb[row][col] ^^ spriteBit x0 y0 rows col.val row.val) := by
  have hin : inFrame col.val row.val := ⟨row.isLt, col.isLt⟩
  rw [← Frame.get_val, get_drawSprite, decide_eq_true hin, Bool.true_and, Frame.get_val]

theorem drawSprite_collided_iff : (drawSprite fb x0 y0 rows).2 = true ↔
    ∃ (row : Fin 32) (col : Fin 64), fb[row][col] = true ∧ spriteBit x0 y0 rows col.val row.val = true := by
  rw [drawSprite_collided]
  constructor
  · rintro ⟨x, y, hbit, hlit⟩
    obtain ⟨hy, hx⟩ := Frame.inFrame_of_get hlit
    exact ⟨⟨y, hy⟩, ⟨x, hx⟩, (Frame.get_val fb ⟨y, hy⟩ ⟨x, hx⟩).symm.trans hlit, hbit⟩
  · rintro ⟨row, col, hlit, hbit⟩
    exact ⟨col, row, hbit, (Frame.get_val fb row col).trans hlit⟩

/-- Turning the same pixels over twice leaves them as they were. -/
theorem drawSprite_drawSprite : (drawSprite (drawSprite fb x0 y0 rows).1 x0 y0 rows).1 = fb :=
  Frame.ext_pixel fun row col => by
    rw [drawSprite_pixel, drawSprite_pixel, Bool.xor_assoc, Bool.xor_self, Bool.xor_false]

variable {fb} (hblank : ∀ (row : Fin 32) (col : Fin 64), fb[row][col] = false)
include hblank

theorem drawSprite_blank_collided : (drawSprite fb x0 y0 rows).2 = false := by
  rw [Bool.eq_false_iff, ne_eq, drawSprite_collided_iff]
  rintro ⟨row, col, hlit, -⟩
  rw [hblank] at hlit
  cases hlit

/-- On a blank frame the sprite lights the pixels under its 1 bits, and the second draw meets each of them. -/
theorem drawSprite_again_collided_iff :
    (drawSprite (drawSprite fb x0 y0 rows).1 x0 y0 rows).2 = true ↔ (drawSprite fb x0 y0 rows).1 ≠ fb := by
  rw [drawSprite_collided_iff, Frame.ne_blank_iff hblank]
  simp only [drawSprite_pixel, hblank, Bool.false_xor, and_self]

end

/-! The collision flag (R147). -/

theorem collisionFlag_eq_one_iff (b : Bool) : collisionFlag b = 1 ↔ b = true := by
  cases b <;> decide

theorem collisionFlag_eq_one_or_zero (b : Bool) : collisionFlag b = 1 ∨ collisionFlag b = 0 := by
  cases b <;> decide

/-! `DXYN`: what it asks of the sink, and what it makes of the answer (R144). -/

/-- The request in the words of the spec, for any list that holds the `N` sprite bytes. -/
theorem drawRequest_eq {s : State} {n : Nibble} {rows : List Byte} (x y : Nibble) (hlen : rows.length = n.toNat)
    (hrows : ∀ r (h : r < rows.length), rows[r] = s.mem.read (ea (indexed s.i r))) :
    drawRequest x y n s = drawSprite s.fb ((s.readV x).toNat % 64) ((s.readV y).toNat % 32) rows := by
  have hload : s.loadBytes s.i n.toNat = rows :=
    List.ext_getElem (by rw [State.loadBytes_length, hlen]) fun r _ hr => by
      rw [State.loadBytes_getElem, hrows r hr, State.memRead]
  rw [drawRequest, hload]
  rfl

section
variable {s t : State} {x y n : Nibble} (h : exec (.drwVxVyN x y n) s = .next t)
include h

theorem fb_of_exec_drwVxVyN : t.fb = (drawRequest x y n s).1 := by
  cases h
  rfl

theorem readV_flag_of_exec_drwVxVyN : t.readV 0xF = collisionFlag (drawRequest x y n s).2 := by
  cases h
  exact State.readV_writeV_same

theorem readV_of_exec_drwVxVyN {q : Nibble} (hq : q ≠ 0xF) : t.readV q = s.readV q := by
  cases h
  exact State.readV_writeV_of_ne hq

/-- A draw whose position is not in `V[0xF]` leaves the position and the sprite as they were, so that the next one
differs in the frame alone. -/
theorem drawRequest_of_exec_drwVxVyN (hx : x ≠ 0xF) (hy : y ≠ 0xF) : drawRequest x y n t =
    drawSprite (drawRequest x y n s).1 (spriteColumn (s.readV x)) (spriteRow (s.readV y))
      (s.loadBytes s.i n.toNat) := by
  rw [← fb_of_exec_drwVxVyN h, drawRequest, readV_of_exec_drwVxVyN h hx, readV_of_exec_drwVxVyN h hy]
  cases h
  rfl

end

/-! The statements. -/

/-- Settles O39: the frame is the sink's answer to the request. -/
theorem drawTurnsOverThePixelsUnderTheSprite : Obligations.DrawTurnsOverThePixelsUnderTheSprite := by
  intro s x y n rows hlen hrows
  refine ⟨_, rfl, rfl, fun q => readV_of_exec_drwVxVyN rfl, fun row col => ?_⟩
  rw [← drawSprite_pixel, ← drawRequest_eq x y hlen hrows]
  rfl

/-- Settles O40: the flag is the sink's answer to the request. -/
theorem drawSetsTheCollisionFlag : Obligations.DrawSetsTheCollisionFlag := by
  intro s t x y n rows hlen hrows h
  rw [readV_flag_of_exec_drwVxVyN h, drawRequest_eq x y hlen hrows]
  exact ⟨collisionFlag_eq_one_or_zero _, (collisionFlag_eq_one_iff _).trans (drawSprite_collided_iff _ _ _ _)⟩

/-- Settles O41: the second draw makes the first one's request of the frame that the first one left. -/
theorem drawingTwiceRestoresTheFrame : Obligations.DrawingTwiceRestoresTheFrame := by
  intro s x y n hx hy
  obtain ⟨t, ht⟩ := everyInstructionCompletes (.drwVxVyN x y n) s
  obtain ⟨u, hu⟩ := everyInstructionCompletes (.drwVxVyN x y n) t
  have hreq := drawRequest_of_exec_drwVxVyN ht hx hy
  refine ⟨t, u, ht, hu, ?_, fun hblank => ⟨?_, ?_⟩⟩
  · rw [fb_of_exec_drwVxVyN hu, hreq]
    exact drawSprite_drawSprite _ _ _ _
  · rw [readV_flag_of_exec_drwVxVyN ht, drawRequest, drawSprite_blank_collided _ _ _ hblank]
    rfl
  · rw [readV_flag_of_exec_drwVxVyN hu, collisionFlag_eq_one_iff, hreq, fb_of_exec_drwVxVyN ht]
    exact drawSprite_again_collided_iff _ _ _ hblank

/-- Settles O38: the frame is the blank one, read pixel by pixel. -/
theorem clearMakesEveryPixelZero : Obligations.ClearMakesEveryPixelZero :=
  fun _ => ⟨_, rfl, rfl, fun y x => (Frame.get_val clearFrame y x).symm.trans (get_clearFrame x y)⟩

end Sys2Proof.Machine
end

section
/-! SUPPORT. The statements of 45_keypad_timers.md about instructions: the key skips by the key they test, the wait for
a key, and the timer accesses. -/

namespace Sys2Proof.Machine

/-! The skips that test a key (R150, R151). -/

/-- A whole byte names a key that is down only as one of the sixteen key numbers (R156, D7). -/
theorem State.keyPressed_iff (s : State) (b : Byte) :
    s.keyPressed b = true ↔ ∃ k : Fin 16, b.toNat = k.val ∧ s.keys.getLsbD k.val = true := by
  rw [State.keyPressed, Bool.and_eq_true, decide_eq_true_iff]
  constructor
  · rintro ⟨hle, hdown⟩
    exact ⟨⟨b.toNat, Nat.lt_succ_of_le hle⟩, rfl, hdown⟩
  · rintro ⟨k, hk, hdown⟩
    rw [hk]
    exact ⟨Nat.le_of_lt_succ k.isLt, hdown⟩

theorem State.keyPressed_eq_false {s : State} {b : Byte}
    (h : ∀ k : Fin 16, b.toNat = k.val → s.keys.getLsbD k.val = false) : s.keyPressed b = false := by
  rw [Bool.eq_false_iff, ne_eq, State.keyPressed_iff]
  rintro ⟨k, hk, hdown⟩
  exact Bool.eq_false_iff.1 (h k hk) hdown

/-- The two skips on one answer to their test: one takes it, the other its negation. -/
theorem exec_keySkips {s : State} {x : Nibble} {down : Bool} (h : s.keyPressed (s.readV x) = down) :
    exec (.skpVx x) s = .next (s.skipIf down) ∧ exec (.sknpVx x) s = .next (s.skipIf (!down)) := by
  subst h
  exact ⟨rfl, rfl⟩

/-- Settles O22: the two hypotheses are the two answers to the test, and a skip not taken is the state itself. -/
theorem keySkipsTestTheLatch : Obligations.KeySkipsTestTheLatch :=
  fun s x => ⟨fun h => exec_keySkips ((s.keyPressed_iff (s.readV x)).2 h),
    fun h => exec_keySkips (State.keyPressed_eq_false h)⟩

/-! The wait for a key (R152). -/

theorem zextKey_toNat (k : Nibble) : (zextKey k).toNat = k.toNat :=
  BitVec.toNat_setWidth_of_le (by omega)

/-- Settles O42: with no release recorded, `PC - 2` is `A`; with one, the instruction is one register write. -/
theorem waitForKeyRewindsOrDelivers : Obligations.WaitForKeyRewindsOrDelivers := by
  intro s a x hpc
  refine ⟨fun hk => ?_, fun hk => ⟨_, execLdVxK_deliver x s hk, rfl, ?_, fun r hr => ?_⟩⟩
  · have hwait := execLdVxK_wait x s hk
    rwa [pc_sub_two hpc] at hwait
  · rw [State.readV_setKRel, State.readV_writeV_same, zextKey_toNat]
  · rw [State.readV_setKRel, State.readV_writeV_of_ne hr]

/-- A waiting `FX0A` takes back the cycle's advance of `PC`, and changes nothing else. -/
theorem execLdVxK_advance_wait {s : State} (x : Nibble) (hk : s.kRel = false) : execLdVxK x s.advance = .next s := by
  rw [execLdVxK_wait x s.advance hk, pc_sub_two s.advance_pc]
  rfl

theorem run_of_fixedPoint (n : Nat) {s : State} (h : step s = .next s) :
    Host.Core.run Sys2Proof.core n s = .next s := by
  induction n with
  | zero => rfl
  | succ n ih => rw [run_succ n h, ih]

/-- Settles O43: a step of the waiting instruction is a fixed point. -/
theorem waitForKeyWaitsForEver : Obligations.WaitForKeyWaitsForEver := by
  intro s x n hin hr hpc hd hk
  have hstep : step s = .next s := (step_of_decode_fetchWord hin hr hpc hd).trans (execLdVxK_advance_wait x hk)
  exact run_of_fixedPoint n hstep

/-! The timer accesses (R153 to R155). -/

theorem State.audioEn_iff (s : State) : s.audioEn = true ↔ s.st ≠ 0 := by
  rw [State.audioEn, decide_eq_true_iff, Nat.pos_iff_ne_zero, ne_eq, ne_eq, BitVec.toNat_eq]
  rfl

/-- Settles O44: each of the three ends in one write, and `AUDIO_EN` is read off the new `ST`. -/
theorem timerInstructionsMoveOneByte : Obligations.TimerInstructionsMoveOneByte :=
  fun s x => ⟨⟨_, rfl, rfl, State.readV_writeV_same, fun _ => State.readV_writeV_of_ne⟩, rfl, rfl,
    State.audioEn_iff (s.setSt (s.readV x))⟩

end Sys2Proof.Machine
end

section
/-! SUPPORT. The statements of 60_exceptions.md: the report history is an output only, an event is refused only when it
is ill formed, each field has its writers, and what Ticks, elapsed time and key events change. -/

namespace Sys2Proof.Machine

/-! The report history is an output (R160, D13). -/

/-- Two outcomes that cannot be told apart but by the report history: next states that agree in every other field and
end the histories `old` and `rs` with the same new reports, or one refusal. -/
inductive SameButReports (old rs : List Report) :
    Host.Outcome State Fault Refusal → Host.Outcome State Fault Refusal → Prop
  | next {t : State} (new : List Report) (h : t.reports = new ++ old) :
    SameButReports old rs (.next t) (.next (t.setReports (new ++ rs)))
  | refused (r : Refusal) : SameButReports old rs (.refused r) (.refused r)

section
variable (s : State) (rs : List Report)

/-- The meaning `f` does not observe the report history of `s`. -/
def IgnoresReports (f : State → Host.Outcome State Fault Refusal) : Prop :=
  SameButReports s.reports rs (f s) (f (s.setReports rs))

variable {s rs}

theorem ignoresReports_silent {f : State → Host.Outcome State Fault Refusal} {t : State} (h : f s = .next t)
    (hrs : f (s.setReports rs) = .next (t.setReports rs)) (hkeep : t.reports = s.reports) :
    IgnoresReports s rs f := by
  rw [IgnoresReports, h, hrs]
  exact .next [] hkeep

theorem ignoresReports_emit {f : State → Host.Outcome State Fault Refusal} {r : Report} (h : f s = .next (s.emit r))
    (hrs : f (s.setReports rs) = .next ((s.setReports rs).emit r)) : IgnoresReports s rs f := by
  rw [IgnoresReports, h, hrs]
  exact .next [r] rfl

theorem ignoresReports_skipIf (c : Bool) : IgnoresReports s rs (fun s => .next (s.skipIf c)) := by
  cases c with
  | false => exact .next [] rfl
  | true => exact .next [] rfl

theorem exec_ignoresReports (i : Instr) : IgnoresReports s rs (exec i) := by
  cases i with
  | ret =>
    obtain h0 | hpos := Nat.eq_zero_or_pos s.sp.val
    · exact ignoresReports_emit (execRet_underflow s h0) (execRet_underflow (s.setReports rs) h0)
    · exact ignoresReports_silent (execRet_pop s hpos) (execRet_pop (s.setReports rs) hpos) rfl
  | callNnn nnn =>
    by_cases hs : s.sp.val < 16
    · exact ignoresReports_silent (execCallNnn_push nnn s hs) (execCallNnn_push nnn (s.setReports rs) hs) rfl
    · have h16 : s.sp.val = 16 := by omega
      exact ignoresReports_emit (execCallNnn_overflow nnn s h16) (execCallNnn_overflow nnn (s.setReports rs) h16)
  | ldVxK x =>
    cases hk : s.kRel with
    | false => exact ignoresReports_silent (execLdVxK_wait x s hk) (execLdVxK_wait x (s.setReports rs) hk) rfl
    | true => exact ignoresReports_silent (execLdVxK_deliver x s hk) (execLdVxK_deliver x (s.setReports rs) hk) rfl
  | seVxNn | sneVxNn | seVxVy | sneVxVy | skpVx | sknpVx => exact ignoresReports_skipIf (s := s) (rs := rs) _
  | _ => exact ignoresReports_silent rfl rfl rfl

theorem dispatch_ignoresReports (ir a : Word) : IgnoresReports s rs (dispatch ir a) := by
  cases hd : decode ir with
  | ok i =>
    rw [IgnoresReports, dispatch_ok hd, dispatch_ok hd]
    exact exec_ignoresReports i
  | error e => exact ignoresReports_emit (dispatch_error hd a s) (dispatch_error hd a (s.setReports rs))

/-- The fetch reads memory and `PC`, the same in both states. -/
theorem cycle_ignoresReports : IgnoresReports s rs cycle := by
  by_cases hpc : s.pc.toNat ≤ 0x0FFE
  · rw [IgnoresReports, cycle_inRange s hpc, cycle_inRange (s.setReports rs) hpc]
    exact dispatch_ignoresReports (s := s.advance) s.fetchWord s.pc
  · have hout : 0x0FFE < s.pc.toNat := by omega
    exact ignoresReports_emit (cycle_outOfRange s hout) (cycle_outOfRange (s.setReports rs) hout)

theorem ticks_setReports (n : Nat) (s : State) (rs : List Report) :
    State.ticks n (s.setReports rs) = (State.ticks n s).setReports rs := by
  induction n generalizing s with
  | zero => rfl
  | succ n ih => exact ih s.tickEvent

theorem loadEvent_ignoresReports (img : List Byte) : IgnoresReports s rs (fun s => s.loadEvent img) := by
  cases hw : (Event.load img).wellFormed with
  | true => exact ignoresReports_silent (loadEvent_ok s hw) (loadEvent_ok (s.setReports rs) hw) rfl
  | false =>
    rw [IgnoresReports, loadEvent_bad s hw, loadEvent_bad (s.setReports rs) hw]
    exact .refused _

theorem timerEvent_ignoresReports (d : Rat) : IgnoresReports s rs (fun s => s.timerEvent d) := by
  cases hw : (Event.timerAdvance d).wellFormed with
  | true =>
    have hrs : (s.setReports rs).advanceTime d = (s.advanceTime d).setReports rs :=
      congrArg (State.setAcc · _) (ticks_setReports (wholeTicks (s.acc + d)) s rs)
    exact ignoresReports_silent (timerEvent_ok s hw) ((timerEvent_ok (s.setReports rs) hw).trans (by rw [hrs]))
      (advanceTime_reports s d)
  | false =>
    rw [IgnoresReports, timerEvent_bad s hw, timerEvent_bad (s.setReports rs) hw]
    exact .refused _

/-- Whether a Reset has happened is the same in both states. -/
theorem afterReset_ignoresReports {f : State → Host.Outcome State Fault Refusal} (h : IgnoresReports s rs f) :
    IgnoresReports s rs (fun s => s.afterReset (f s)) := by
  cases hr : s.hasReset with
  | true =>
    rw [IgnoresReports, afterReset_true hr, afterReset_true (s := s.setReports rs) hr]
    exact h
  | false =>
    rw [IgnoresReports, afterReset_false hr, afterReset_false (s := s.setReports rs) hr]
    exact .refused _

theorem deliver_ignoresReports (e : Event) : IgnoresReports s rs (deliver e) := by
  cases e with
  | step => exact afterReset_ignoresReports cycle_ignoresReports
  | load img => exact afterReset_ignoresReports (loadEvent_ignoresReports img)
  | tick => exact afterReset_ignoresReports (f := fun s => .next s.tickEvent) (.next [] rfl)
  | timerAdvance d => exact afterReset_ignoresReports (timerEvent_ignoresReports d)
  | reset | keyDown | keyUp => exact .next [] rfl

theorem step_ignoresReports : IgnoresReports s rs step := by
  cases hin : s.inputs with
  | nil =>
    rw [IgnoresReports, step, step, hin, State.setReports_inputs, hin]
    exact deliver_ignoresReports .step
  | cons e rest =>
    rw [IgnoresReports, step_cons s e rest hin, step_cons (s.setReports rs) e rest hin]
    exact deliver_ignoresReports (s := s.setInputs rest) e

end

/-- Settles O11: no event that a step can deliver observes the history. -/
theorem reportsDoNotFeedBack : Obligations.ReportsDoNotFeedBack := by
  intro s rs
  have hstep : SameButReports s.reports rs (step s) (step { s with reports := rs }) := step_ignoresReports
  generalize step s = o, step { s with reports := rs } = o' at hstep ⊢
  cases hstep with
  | next new h => exact ⟨rfl, new, h, rfl⟩
  | refused r => rfl

/-! A strict step (93_implementation_defined.md U12). -/

/-- A completed step completes from every report history, with the same new reports. -/
theorem step_setReports {s t : State} (h : step s = .next t) (rs : List Report) :
    ∃ new, t.reports = new ++ s.reports ∧ step (s.setReports rs) = .next (t.setReports (new ++ rs)) := by
  have hstep : SameButReports s.reports rs (step s) (step (s.setReports rs)) := step_ignoresReports
  rw [h] at hstep
  generalize step (s.setReports rs) = o at hstep ⊢
  cases hstep with
  | next new hnew => exact ⟨new, hnew, rfl⟩

/-- Settles O58: the step from an empty history makes the reports of the step itself, and they are what it ends with. -/
theorem strictStepIsAStepWithoutReport : Obligations.StrictStepIsAStepWithoutReport := by
  intro s t h
  obtain ⟨new, hnew, hstep⟩ := step_setReports h []
  refine ⟨fun hnone => ?_, fun r hone => ?_⟩
  · obtain rfl : new = [] := List.append_left_eq_self.1 (hnew.symm.trans hnone)
    rw [Safety.strictStep, hstep, ← hnone]
    rfl
  · obtain rfl : new = [r] := List.append_cancel_right (hnew.symm.trans hone)
    rw [Safety.strictStep, hstep]
    rfl

/-! What is refused (R179; 70_reset_and_hazards.md R208). -/

theorem cycle_completes (s : State) : ∃ t, cycle s = .next t := by
  obtain ⟨-, i, -, hc⟩ | ⟨-, e, -, hc⟩ | ⟨-, hc⟩ := cycle_cases s
  · obtain ⟨t, ht⟩ := everyInstructionCompletes i s.advance
    exact ⟨t, hc.trans ht⟩
  · exact ⟨_, hc⟩
  · exact ⟨_, hc⟩

theorem loadEvent_completes_iff (s : State) (img : List Byte) :
    (∃ t, s.loadEvent img = .next t) ↔ (Event.load img).wellFormed = true := by
  cases hw : (Event.load img).wellFormed with
  | true => exact iff_of_true ⟨_, loadEvent_ok s hw⟩ rfl
  | false => simp [loadEvent_bad s hw]

theorem timerEvent_completes_iff (s : State) (d : Rat) :
    (∃ t, s.timerEvent d = .next t) ↔ (Event.timerAdvance d).wellFormed = true := by
  cases hw : (Event.timerAdvance d).wellFormed with
  | true => exact iff_of_true ⟨_, timerEvent_ok s hw⟩ rfl
  | false => simp [timerEvent_bad s hw]

theorem deliver_completes_iff {s : State} (hr : s.hasReset = true) (e : Event) :
    (∃ t, deliver e s = .next t) ↔ e.wellFormed = true := by
  cases e with
  | step =>
    rw [deliver, stepEvent, afterReset_true hr]
    exact iff_of_true (cycle_completes s) rfl
  | load img =>
    rw [deliver, afterReset_true hr]
    exact loadEvent_completes_iff s img
  | tick => exact iff_of_true ⟨_, afterReset_true hr _⟩ rfl
  | timerAdvance d =>
    rw [deliver, afterReset_true hr]
    exact timerEvent_completes_iff s d
  | reset | keyDown | keyUp => exact iff_of_true ⟨_, rfl⟩ rfl

/-- Settles O13: with no event waiting the step is a cycle, which completes; otherwise the event waiting decides. -/
theorem onlyIllFormedEventsAreRefused : Obligations.OnlyIllFormedEventsAreRefused := by
  intro s hr
  cases hin : s.inputs with
  | nil =>
    rw [step_nil s hin hr]
    exact iff_of_true (cycle_completes s) (fun _ _ h => nomatch h)
  | cons e rest =>
    rw [step_cons s e rest hin, deliver_completes_iff (s := s.setInputs rest) hr e]
    constructor
    · rintro hw _ _ ⟨⟩
      exact hw
    · exact fun h => h e rest rfl

/-! Who writes each field (R175). -/

/-- The effect of `i` from `s` to `t`, seen through the fields whose writers the spec names (10_state.md R29 to R40,
20_memory.md R56). -/
inductive FieldEffect (s : State) : Instr → State → Prop
  /-- At most registers, `PC`, the report history and the count of draws move: fields open to many instructions. -/
  | common {i : Instr} {t : State} (h : t = { s with v := t.v, pc := t.pc, reports := t.reports, draws := t.draws }) :
    FieldEffect s i t
  | index {i : Instr} (a : Word) (hi : (∃ n, i = .ldINnn n) ∨ (∃ x, i = .addIVx x) ∨ ∃ x, i = .ldFVx x) :
    FieldEffect s i (s.setI a)
  | stack {i : Instr} (k : Vector Word 16) (n : Fin 17) (pc : Word) (hi : i = .ret ∨ ∃ n, i = .callNnn n) :
    FieldEffect s i (((s.setStack k).setSp n).setPc pc)
  | delayTimer (x : Nibble) : FieldEffect s (.ldDtVx x) (s.setDt (s.readV x))
  | soundTimer (x : Nibble) : FieldEffect s (.ldStVx x) (s.setSt (s.readV x))
  | keyDelivered (x : Nibble) (b : Byte) (h : s.kRel = true) :
    FieldEffect s (.ldVxK x) ((s.writeV x b).setKRel false)
  | frame {i : Instr} {t : State} (h : t = { s with v := t.v, fb := t.fb })
    (hi : i = .cls ∨ ∃ x y n, i = .drwVxVyN x y n) : FieldEffect s i t
  | memory {i : Instr} (base : Word) (bytes : List Byte) (hi : (∃ x, i = .ldBVx x) ∨ ∃ x, i = .ldMiVx x) :
    FieldEffect s i (s.store base bytes)

theorem exec_fieldEffect {i : Instr} {s t : State} (h : exec i s = .next t) : FieldEffect s i t := by
  cases i with
  | ret =>
    obtain ⟨-, rfl⟩ | ⟨-, rfl⟩ := execRet_cases h
    · exact .stack s.stack _ _ (.inl rfl)
    · exact .common rfl
  | callNnn nnn =>
    obtain ⟨-, rfl⟩ | ⟨-, rfl⟩ := execCallNnn_cases h
    · exact .stack _ _ _ (.inr ⟨nnn, rfl⟩)
    · exact .common rfl
  | ldVxK x =>
    obtain ⟨-, rfl⟩ | ⟨hk, rfl⟩ := execLdVxK_cases h
    · exact .common rfl
    · exact .keyDelivered x _ hk
  | seVxNn | sneVxNn | seVxVy | sneVxVy | skpVx | sknpVx =>
    cases h
    rw [State.skipIf_eq]
    exact .common rfl
  | ldINnn | addIVx | ldFVx =>
    cases h
    exact .index _ (by simp)
  | ldDtVx x =>
    cases h
    exact .delayTimer x
  | ldStVx x =>
    cases h
    exact .soundTimer x
  | cls =>
    cases h
    exact .frame rfl (.inl rfl)
  | drwVxVyN x y n =>
    cases h
    exact .frame rfl (.inr ⟨x, y, n, rfl⟩)
  | ldBVx | ldMiVx =>
    cases h
    exact .memory _ _ (by simp)
  | _ =>
    cases h
    exact .common rfl

/-- Settles O36: each effect leaves the fields alone that it does not name. -/
theorem eachFieldHasItsWriters : Obligations.EachFieldHasItsWriters := by
  intro i s t h
  cases exec_fieldEffect h with
  | common h =>
    rw [h]
    simp
  | delayTimer | soundTimer => simp
  | index a hi => simp [hi]
  | stack k n pc hi => simp [hi]
  | keyDelivered x b hk => simp [hk]
  | frame h hi =>
    rw [h]
    simp [hi]
  | memory base bytes hi => simp [hi]

/-! The edges of `AUDIO_EN` (R181, R182). -/

/-- An edge takes `AUDIO_EN` to its new level from the other one. -/
theorem toneCall_eq_some_iff {s t : State} {b : Bool} : toneCall s t = some b ↔ s.audioEn ≠ b ∧ t.audioEn = b := by
  by_cases h : s.audioEn = t.audioEn
  · rw [toneCall, if_pos h, h]
    simp
  · rw [toneCall, if_neg h, Option.some_inj]
    exact ⟨fun hb => ⟨hb ▸ h, hb⟩, And.right⟩

/-- A rise of `AUDIO_EN`. -/
theorem toneCall_eq_some_true_iff {s t : State} : toneCall s t = some true ↔ s.st = 0 ∧ t.st ≠ 0 := by
  rw [toneCall_eq_some_iff, ne_eq, State.audioEn_iff, State.audioEn_iff, not_not]

/-- A fall of `AUDIO_EN`. -/
theorem toneCall_eq_some_false_iff {s t : State} : toneCall s t = some false ↔ s.st ≠ 0 ∧ t.st = 0 := by
  rw [toneCall_eq_some_iff, ne_eq, Bool.not_eq_false, State.audioEn_iff, ← Bool.not_eq_true, State.audioEn_iff,
    not_not]

theorem st_ne_of_toneCall {s t : State} {b : Bool} (h : toneCall s t = some b) : t.st ≠ s.st := by
  obtain ⟨hs, rfl⟩ := toneCall_eq_some_iff.1 h
  exact fun hst => hs (by rw [State.audioEn, State.audioEn, hst])

theorem countDown_eq_zero_iff (b : Byte) : countDown b = 0 ↔ b = 0 ∨ b = 1 := by
  rw [← BitVec.toNat_inj, countDown_toNat]
  bv_omega

/-- Settles O46: the only instruction that writes `ST` is `FX18`; a Tick and a Reset do not raise it from 0. -/
theorem audioEdges : Obligations.AudioEdges := by
  refine ⟨fun i s t b h hcall => ?_, fun s => ?_, fun s => ?_⟩
  · obtain ⟨-, -, -, -, -, -, -, -, hst, -⟩ := eachFieldHasItsWriters i s t h
    obtain ⟨x, rfl⟩ := hst (st_ne_of_toneCall hcall)
    cases h
    cases b with
    | true =>
      obtain ⟨hs, ht⟩ := toneCall_eq_some_true_iff.1 hcall
      exact ⟨x, rfl, iff_of_true rfl ht, iff_of_true rfl hs⟩
    | false =>
      obtain ⟨hs, ht⟩ := toneCall_eq_some_false_iff.1 hcall
      exact ⟨x, rfl, iff_of_false Bool.false_ne_true (not_not.2 ht), iff_of_false Bool.false_ne_true hs⟩
  · have htick : s.tickEvent.st = countDown s.st := rfl
    rw [ne_eq, toneCall_eq_some_true_iff, toneCall_eq_some_false_iff, htick, ne_eq, countDown_eq_zero_iff]
    refine ⟨fun ⟨h0, hpos⟩ => hpos (.inl h0), fun ⟨hne, hz⟩ => hz.resolve_left hne, fun h1 => ⟨?_, .inr h1⟩⟩
    rw [h1]
    decide
  · have hreset : s.resetEvent.st = 0 := rfl
    simp [toneCall_eq_some_true_iff, toneCall_eq_some_false_iff, hreset]

/-! Ticks and elapsed time (R178, R179). -/

theorem run_ticks (n : Nat) {s : State} {rest : List Event} (hin : s.inputs = List.replicate n .tick ++ rest)
    (hr : s.hasReset = true) :
    Host.Core.run Sys2Proof.core n s = .next (State.ticks n (s.setInputs rest)) := by
  induction n generalizing s with
  | zero =>
    obtain rfl : s.inputs = rest := hin
    rfl
  | succ n ih =>
    have hstep : step s = .next (s.setInputs (List.replicate n .tick ++ rest)).tickEvent := by
      rw [step_cons s .tick _ hin]
      exact afterReset_true hr _
    rw [run_succ n hstep]
    exact ih rfl hr

/-- Settles O47: the `n` steps are `n` Ticks, each of which counts both timers down. -/
theorem tickCountsDownWithFloor : Obligations.TickCountsDownWithFloor := by
  intro s n rest hin hr
  obtain ⟨dt, st, hticks, hdt, hst⟩ := ticks_eq n (s.setInputs rest)
  exact ⟨((s.setInputs rest).setDt dt).setSt st, hticks ▸ run_ticks n hin hr, rfl, hdt, hst⟩

/-- Settles O48: the number of Ticks is that of the whole sixtieths of a second accumulated. -/
theorem timerAdvanceTicksWholeSixtieths : Obligations.TimerAdvanceTicksWholeSixtieths := by
  intro s d rest hin hr hd hacc
  have hstep : step s = .next ((s.setInputs rest).advanceTime d) := by
    rw [step_cons s _ rest hin]
    exact (afterReset_true hr _).trans (timerEvent_ok _ ((wellFormed_timerAdvance d).2 hd))
  obtain ⟨dt, st, hticks, hdt, hst⟩ := ticks_eq (wholeTicks (s.acc + d)) (s.setInputs rest)
  obtain ⟨hle, hlt⟩ := wholeTicks_spec (s.acc + d) (add_nonneg hacc hd)
  refine ⟨(((s.setInputs rest).setDt dt).setSt st).setAcc (s.acc + d - (wholeTicks (s.acc + d) : Rat) / 60),
    wholeTicks (s.acc + d), ?_, rfl, rfl, ?_, ?_, hdt, hst⟩
  · rw [hstep, State.advanceTime, ← hticks]
    rfl
  · rw [State.setAcc_acc]
    linarith
  · rw [State.setAcc_acc]
    linarith

/-! Key events (R183, R184). -/

/-- The one bit of the latch that a key number selects. -/
theorem getLsbD_keyBit (k : Nibble) (j : Nat) : (1#16 <<< k.toNat).getLsbD j = decide (j = k.toNat) := by
  rw [← BitVec.twoPow_eq, BitVec.getLsbD_twoPow, decide_eq_true k.isLt]
  simp [eq_comm]

/-- Settles O49: a key event writes the mask of its key into the latch. -/
theorem keyEventsSetTheLatch : Obligations.KeyEventsSetTheLatch := by
  intro s k rest
  refine ⟨fun hin => ⟨_, step_cons s _ rest hin, rfl, fun j hj => ?_⟩,
    fun hin => ⟨_, step_cons s _ rest hin, rfl, fun j hj => ?_⟩⟩
  · change (s.keys ||| 1#16 <<< k.toNat).getLsbD j = _
    rw [BitVec.getLsbD_or, getLsbD_keyBit k j, Bool.or_comm]
  · change (s.keys &&& ~~~(1#16 <<< k.toNat)).getLsbD j = _
    rw [BitVec.getLsbD_and, BitVec.getLsbD_not, getLsbD_keyBit k j, decide_eq_true hj, Bool.true_and, Bool.and_comm]

end Sys2Proof.Machine
end

section
/-! SUPPORT. The statements of 70_reset_and_hazards.md: what Reset sets and leaves, what a Load copies and refuses, and
two steps at known code, a placed word and a parked jump. -/

namespace Sys2Proof.Machine

open Sys2Proof.Safety

/-! What memory holds after a Reset (R200, R201): the font table and zeros. -/

theorem fontTable_length : Config.fontTable.length = 80 := rfl

/-- The font lies below the program start (00_scope.md R7). -/
theorem fontBase_add_80_le : Config.fontBase.val + 80 ≤ 0x200 := by
  have := Config.fontBase.isLt
  omega

theorem Memory.unlisted_font {k : Nat} (hk : k < Config.fontTable.length) :
    Memory.unlisted (Config.fontBase.val + k) = Config.fontTable[k] := by
  have hend := fontBase_add_80_le
  have h80 : k < 80 := fontTable_length ▸ hk
  have hstart : ¬ Config.programStart ≤ Config.fontBase.val + k := by rw [Config.programStart]; omega
  have hfont : Config.fontBase.val ≤ Config.fontBase.val + k ∧
      Config.fontBase.val + k < Config.fontBase.val + Config.fontBytes := by rw [Config.fontBytes]; omega
  rw [Memory.unlisted, if_neg hstart, if_pos hfont, Nat.add_sub_cancel_left, List.getD_eq_getElem _ _ hk]

theorem Memory.unlisted_of_not_font {a : Nat} (h : ∀ k < 80, a ≠ Config.fontBase.val + k) :
    Memory.unlisted a = 0 := by
  have hfont : ¬ (Config.fontBase.val ≤ a ∧ a < Config.fontBase.val + Config.fontBytes) := by
    rintro ⟨hlo, hhi⟩
    rw [Config.fontBytes] at hhi
    exact h (a - Config.fontBase.val) (by omega) (by omega)
  rw [Memory.unlisted, if_neg hfont, ite_self]

/-! The Reset event (R200 to R204). -/

theorem step_reset {s : State} {rest : List Event} (hin : s.inputs = .reset :: rest) :
    step s = .next (s.setInputs rest).resetEvent :=
  step_cons s .reset rest hin

/-- Settles O50: the memory that Reset leaves lists nothing, so it reads as the font and zeros. -/
theorem resetLeavesTheListedState : Obligations.ResetLeavesTheListedState := by
  intro s rest hin
  refine ⟨_, step_reset hin, fun r => ?_, rfl, rfl, rfl, fun j => ?_, rfl, rfl, rfl, fontBase_add_80_le,
    fontTable_length, fun k hk => Memory.unlisted_font hk, fun a ha => Memory.unlisted_of_not_font ha, rfl⟩
  · exact Vector.getElem_replicate r.isLt
  · exact Vector.getElem_replicate j.isLt

/-- Settles O51: the Reset event assigns none of these fields but the note that it happened. -/
theorem resetLeavesTheLatchAndTheFrame : Obligations.ResetLeavesTheLatchAndTheFrame :=
  fun _ _ hin => ⟨_, step_reset hin, rfl, rfl, rfl, rfl, rfl, rfl, rfl, rfl, rfl⟩

/-- Settles O52: Reset assigns constants, and what it leaves of a power-on state is fixed at power-on or open. -/
theorem resetIsIdempotentAndStartsTheMachine : Obligations.ResetIsIdempotentAndStartsTheMachine := by
  intro s
  refine ⟨rfl, fun hon => ?_⟩
  rw [State.resetEvent, hon.keys_zero, hon.lastKey_zero, hon.kRel_clear, hon.fb_init]
  rfl

/-- Settles O53: the four refused events are the ones that `State.afterReset` guards. -/
theorem nothingRunsBeforeTheFirstReset : Obligations.NothingRunsBeforeTheFirstReset := by
  intro s e rest hr
  refine ⟨fun hin => ?_, fun hin => ?_⟩
  · rw [step, hin]
    exact afterReset_false hr _
  · rw [step_cons s e rest hin]
    constructor
    · rintro (rfl | rfl | ⟨img, rfl⟩ | ⟨d, rfl⟩) <;> exact afterReset_false (s := s.setInputs rest) hr _
    · rintro (rfl | ⟨k, rfl⟩ | ⟨k, rfl⟩) <;> exact ⟨_, rfl⟩

/-- Settles O56: memory lists nothing, the accumulator and the stack slots are 0, and `PC` is the program start. -/
theorem resetMeetsTheInvariant : Obligations.ResetMeetsTheInvariant where
  mem_wf := ⟨.nil, fun _ hc => nomatch hc⟩
  acc_nonneg := le_rfl
  acc_lt := show (0 : Rat) < 1 / 60 by norm_num
  pc_le := by decide
  stack_le := by decide

/-! The Load event (R207, R208). -/

theorem step_load {s : State} {img : List Byte} {rest : List Event} (hin : s.inputs = .load img :: rest)
    (hr : s.hasReset = true) : step s = (s.setInputs rest).loadEvent img := by
  rw [step_cons s _ rest hin]
  exact afterReset_true hr _

/-- An image of at most 3584 bytes does not wrap: its byte `k` goes to `0x200 + k` itself. -/
theorem ea_programStart_indexed {k : Nat} (hk : k < 3584) :
    ea (indexed (BitVec.ofNat 16 Config.programStart) k) = 0x200 + k := by
  rw [ea_indexed, Config.programStart, BitVec.toNat_ofNat]
  omega

section
variable (s : State) {img : List Byte} (hlen : img.length ≤ 3584)
include hlen

theorem read_loadImage_outside {a : Nat} (ha : a < 0x200 ∨ 0x200 + img.length ≤ a) :
    (s.loadImage img).mem.read a = s.mem.read a := by
  refine Memory.read_storeFrom_outside _ _ 0 img a fun k hk => ?_
  rw [Nat.zero_add, ea_programStart_indexed (by omega)]
  omega

theorem read_loadImage_inside (hm : s.mem.wf) {k : Nat} (hk : k < img.length) :
    (s.loadImage img).mem.read (0x200 + k) = img[k] := by
  have hread := Memory.read_storeFrom_inside hm (BitVec.ofNat 16 Config.programStart) 0 img (by omega) k hk
  rwa [Nat.zero_add, ea_programStart_indexed (by omega)] at hread

end

/-- Settles O54: a Load of a well-formed image is one block store from the program start on. -/
theorem loadCopiesTheImage : Obligations.LoadCopiesTheImage := by
  intro s img rest hin hr hpos hlen
  have hstep : step s = .next ((s.setInputs rest).loadImage img) :=
    (step_load hin hr).trans (loadEvent_ok _ ((wellFormed_load img).2 ⟨hpos, hlen⟩))
  exact ⟨_, hstep, rfl, fun a ha => read_loadImage_outside (s.setInputs rest) hlen ha,
    fun hm k hk => read_loadImage_inside (s.setInputs rest) hlen hm hk⟩

/-- Settles O55: such an image is not well formed. -/
theorem badImagesAreRefused : Obligations.BadImagesAreRefused := by
  intro s img rest hin hr hbad
  have hill : (Event.load img).wellFormed = false := by
    rw [← Bool.not_eq_true, wellFormed_load]
    omega
  rw [step_load hin hr, loadEvent_bad _ hill]

/-! A placed word (R210) and a parked jump (R213). -/

theorem decode_tableWord {n w : Nat} {i : Instr} (h : decodeTableWord n w = some i) :
    decode (tableWord n w) = .ok i := by
  rw [decodeTableWord, decodeBytes, wordOfBytes_high_low] at h
  cases hd : decode (tableWord n w) with
  | ok j =>
    rw [hd] at h
    cases h
    rfl
  | error e =>
    rw [hd] at h
    cases h

theorem State.fetchable_pc_le (s : State) : s.fetchable.pc.toNat ≤ 0x0FFE := by
  rw [State.fetchable]
  split
  · next h => exact of_decide_eq_true h
  · exact show (BitVec.ofNat 16 Config.programStart).toNat ≤ 0x0FFE by decide

@[simp] theorem State.fetchable_mem (s : State) : s.fetchable.mem = s.mem := by
  rw [State.fetchable]
  split <;> rfl

/-- The two bytes at `PC` make the placed word, high byte first: the second write leaves the first byte alone. -/
theorem fetchWord_withFetchWord {s : State} (hm : s.mem.wf) (n w : Nat) :
    (s.withFetchWord n w).fetchWord = tableWord n w := by
  have hpc := s.fetchable_pc_le
  have hmem : s.fetchable.mem.wf := s.fetchable_mem.symm ▸ hm
  have hfirst := Memory.write_wf hmem (a := s.fetchable.pc.toNat) (by rw [Config.memSize]; omega)
    (highByte (tableWord n w))
  calc
    (s.withFetchWord n w).fetchWord = wordOfBytes (highByte (tableWord n w)) (lowByte (tableWord n w)) := by
      refine congrArg₂ wordOfBytes ?_ (Memory.read_write_same _ hfirst _ _)
      exact (Memory.read_write_ne _ _ (Nat.lt_succ_self _).ne).trans (Memory.read_write_same _ hmem _ _)
    _ = tableWord n w := wordOfBytes_high_low _

/-- Settles O15: the next step fetches the placed word, at a `PC` in range. -/
theorem placedWordRunsNext : Obligations.PlacedWordRunsNext := by
  intro s w i hm hd
  have hfetch := fetchWord_withFetchWord hm 16 w
  exact step_of_decode_fetchWord rfl rfl s.fetchable_pc_le (hfetch ▸ decode_tableWord hd)

/-- Settles O16: the jump sets `PC` back to what it was before the advance. -/
theorem parkedStateIsAFixedPoint : Obligations.ParkedStateIsAFixedPoint := by
  rintro s hin hr ⟨hpc, nnn, hd, htarget⟩
  calc
    step s = exec (.jpNnn nnn) s.advance := step_of_decode_fetchWord hin hr hpc hd
    _ = .next (s.advance.setPc s.pc) := by rw [← htarget]; rfl
    _ = .next s := rfl

end Sys2Proof.Machine
end
